-- ==== Sys2Proof/Word.lean ====
section
/-! DEFINITION. The two word types of the machine. -/

namespace Sys2Proof

/-- A memory byte, a general register, a timer: 8 bits, unsigned (10_state.md R10, R14, R22; 00_scope.md R4). -/
abbrev Byte := BitVec 8

/-- An instruction word, I, PC, a stack entry: 16 bits, unsigned (10_state.md R17, R19, R20, R24). -/
abbrev Word := BitVec 16

end Sys2Proof
end

