-- ==== Sys2Proof/Syntax.lean ====
section
/-! DEFINITION. The instruction set: one constructor per row of spec/opcode_table.json (30_encoding.md R66), in its order. -/

namespace Sys2Proof

/-- A register selector X or Y: V0 .. VF (10_state.md R10, 30_encoding.md R62). -/
abbrev RegIx := Fin 16

/-- The 34 instructions. `NN` is an unsigned byte, `NNN` an unsigned 12-bit address, `n` a row count 0 .. 15 (30_encoding.md
R62; `Instr.wf` checks the bound of `n`). `shr` and `shl` carry no Y: all its values are the same instruction (R69). -/
inductive Instr where
  /-- 00E0 `CLS` -/
  | cls
  /-- 00EE `RET` -/
  | ret
  /-- 1NNN `JP NNN` -/
  | jp (nnn : BitVec 12)
  /-- 2NNN `CALL NNN` -/
  | call (nnn : BitVec 12)
  /-- 3XNN `SE Vx,NN` -/
  | seImm (x : RegIx) (nn : Byte)
  /-- 4XNN `SNE Vx,NN` -/
  | sneImm (x : RegIx) (nn : Byte)
  /-- 5XY0 `SE Vx,Vy` -/
  | seReg (x y : RegIx)
  /-- 6XNN `LD Vx,NN` -/
  | ldImm (x : RegIx) (nn : Byte)
  /-- 7XNN `ADD Vx,NN` -/
  | addImm (x : RegIx) (nn : Byte)
  /-- 8XY0 `LD Vx,Vy` -/
  | ldReg (x y : RegIx)
  /-- 8XY1 `OR Vx,Vy` -/
  | orReg (x y : RegIx)
  /-- 8XY2 `AND Vx,Vy` -/
  | andReg (x y : RegIx)
  /-- 8XY3 `XOR Vx,Vy` -/
  | xorReg (x y : RegIx)
  /-- 8XY4 `ADD Vx,Vy` -/
  | addReg (x y : RegIx)
  /-- 8XY5 `SUB Vx,Vy` -/
  | subReg (x y : RegIx)
  /-- 8XY6 `SHR Vx` -/
  | shr (x : RegIx)
  /-- 8XY7 `SUBN Vx,Vy` -/
  | subnReg (x y : RegIx)
  /-- 8XYE `SHL Vx` -/
  | shl (x : RegIx)
  /-- 9XY0 `SNE Vx,Vy` -/
  | sneReg (x y : RegIx)
  /-- ANNN `LD I,NNN` -/
  | ldI (nnn : BitVec 12)
  /-- BNNN `JP V0,NNN` -/
  | jpV0 (nnn : BitVec 12)
  /-- CXNN `RND Vx,NN` -/
  | rnd (x : RegIx) (nn : Byte)
  /-- DXYN `DRW Vx,Vy,N` -/
  | drw (x y : RegIx) (n : Nat)
  /-- EX9E `SKP Vx` -/
  | skp (x : RegIx)
  /-- EXA1 `SKNP Vx` -/
  | sknp (x : RegIx)
  /-- FX07 `LD Vx,DT` -/
  | ldVxDt (x : RegIx)
  /-- FX0A `LD Vx,K` -/
  | ldVxKey (x : RegIx)
  /-- FX15 `LD DT,Vx` -/
  | ldDtVx (x : RegIx)
  /-- FX18 `LD ST,Vx` -/
  | ldStVx (x : RegIx)
  /-- FX1E `ADD I,Vx` -/
  | addI (x : RegIx)
  /-- FX29 `LD F,Vx` -/
  | ldFont (x : RegIx)
  /-- FX33 `LD B,Vx` -/
  | ldBcd (x : RegIx)
  /-- FX55 `LD [I],Vx` -/
  | storeRegs (x : RegIx)
  /-- FX65 `LD Vx,[I]` -/
  | loadRegs (x : RegIx)
deriving DecidableEq, Repr

end Sys2Proof
end

