-- ==== Sys2Proof/WellFormed.lean ====
section
/-! DEFINITION. Which terms of `Instr` are instructions of the hardware. Register selectors and immediates have exactly the width
of their fields in their types, so the row count of `DRW` is the one operand left to check. -/

namespace Sys2Proof

/-- Every operand fits its field: N is an unsigned 4-bit row count 0 .. 15 (30_encoding.md R62, 44_display.md R162). -/
def Instr.wf : Instr → Bool
  | .drw _ _ n => n < 16
  | .cls | .ret | .jp _ | .call _ | .seImm _ _ | .sneImm _ _ | .seReg _ _ | .ldImm _ _ | .addImm _ _ | .ldReg _ _
  | .orReg _ _ | .andReg _ _ | .xorReg _ _ | .addReg _ _ | .subReg _ _ | .shr _ | .subnReg _ _ | .shl _ | .sneReg _ _
  | .ldI _ | .jpV0 _ | .rnd _ _ | .skp _ | .sknp _ | .ldVxDt _ | .ldVxKey _ | .ldDtVx _ | .ldStVx _ | .addI _
  | .ldFont _ | .ldBcd _ | .storeRegs _ | .loadRegs _ => true

end Sys2Proof
end

