-- ==== Sys2Proof/Decode.lean ====
section
/-! DEFINITION. The decoder (instruction_dispatcher, 30_encoding.md section 3) and, after it, the encoder. The opcode table of R66 is
written a third time, as match and mask, so that claims can hold the decoder against it. -/

namespace Sys2Proof

/-! ### The fields of an instruction word (00_scope.md R3, 30_encoding.md R61) -/

/-- `op[15:12]`, the primary opcode. -/
def fieldTop (op : Word) : Nat := (op.extractLsb' 12 4).toNat

/-- `X = op[11:8]`. -/
def fieldX (op : Word) : RegIx := ⟨(op.extractLsb' 8 4).toNat, (op.extractLsb' 8 4).isLt⟩

/-- `Y = op[7:4]`. -/
def fieldY (op : Word) : RegIx := ⟨(op.extractLsb' 4 4).toNat, (op.extractLsb' 4 4).isLt⟩

/-- `N = op[3:0]`. -/
def fieldN (op : Word) : Nat := (op.extractLsb' 0 4).toNat

/-- `NN = op[7:0]`. -/
def fieldNN (op : Word) : Byte := op.extractLsb' 0 8

/-- `NNN = op[11:0]`. -/
def fieldNNN (op : Word) : BitVec 12 := op.extractLsb' 0 12

/-! ### The decoder -/

/-- Group 0x0: all sixteen bits are fixed (30_encoding.md R64). -/
def decode0 (op : Word) : Option Instr :=
  if op = 0x00E0#16 then some .cls
  else if op = 0x00EE#16 then some .ret
  else none

/-- Group 0x8: the low nibble selects (30_encoding.md R63, R64). -/
def decode8 (op : Word) : Option Instr :=
  match fieldN op with
  | 0x0 => some (.ldReg (fieldX op) (fieldY op))
  | 0x1 => some (.orReg (fieldX op) (fieldY op))
  | 0x2 => some (.andReg (fieldX op) (fieldY op))
  | 0x3 => some (.xorReg (fieldX op) (fieldY op))
  | 0x4 => some (.addReg (fieldX op) (fieldY op))
  | 0x5 => some (.subReg (fieldX op) (fieldY op))
  | 0x6 => some (.shr (fieldX op))
  | 0x7 => some (.subnReg (fieldX op) (fieldY op))
  | 0xE => some (.shl (fieldX op))
  | _   => none

/-- Group 0xE: the whole low byte selects (30_encoding.md R64). -/
def decodeE (op : Word) : Option Instr :=
  if fieldNN op = 0x9E#8 then some (.skp (fieldX op))
  else if fieldNN op = 0xA1#8 then some (.sknp (fieldX op))
  else none

/-- Group 0xF: the whole low byte selects (30_encoding.md R63, R64). -/
def decodeF (op : Word) : Option Instr :=
  if fieldNN op = 0x07#8 then some (.ldVxDt (fieldX op))
  else if fieldNN op = 0x0A#8 then some (.ldVxKey (fieldX op))
  else if fieldNN op = 0x15#8 then some (.ldDtVx (fieldX op))
  else if fieldNN op = 0x18#8 then some (.ldStVx (fieldX op))
  else if fieldNN op = 0x1E#8 then some (.addI (fieldX op))
  else if fieldNN op = 0x29#8 then some (.ldFont (fieldX op))
  else if fieldNN op = 0x33#8 then some (.ldBcd (fieldX op))
  else if fieldNN op = 0x55#8 then some (.storeRegs (fieldX op))
  else if fieldNN op = 0x65#8 then some (.loadRegs (fieldX op))
  else none

/-- Decode one instruction word: first the top nibble, then the group's own selector (30_encoding.md R63). `none` is an illegal
word (R67). The groups 0x5 and 0x9 check their fixed low nibble (R64). -/
def decodeWord (op : Word) : Option Instr :=
  match fieldTop op with
  | 0x0 => decode0 op
  | 0x1 => some (.jp (fieldNNN op))
  | 0x2 => some (.call (fieldNNN op))
  | 0x3 => some (.seImm (fieldX op) (fieldNN op))
  | 0x4 => some (.sneImm (fieldX op) (fieldNN op))
  | 0x5 => if fieldN op = 0 then some (.seReg (fieldX op) (fieldY op)) else none
  | 0x6 => some (.ldImm (fieldX op) (fieldNN op))
  | 0x7 => some (.addImm (fieldX op) (fieldNN op))
  | 0x8 => decode8 op
  | 0x9 => if fieldN op = 0 then some (.sneReg (fieldX op) (fieldY op)) else none
  | 0xA => some (.ldI (fieldNNN op))
  | 0xB => some (.jpV0 (fieldNNN op))
  | 0xC => some (.rnd (fieldX op) (fieldNN op))
  | 0xD => some (.drw (fieldX op) (fieldY op) (fieldN op))
  | 0xE => decodeE op
  | 0xF => decodeF op
  | _   => none

/-- Why a sequence of bytes holds no instruction. -/
inductive DecodeError where
  /-- Fewer than two bytes. -/
  | truncated
  /-- The word matches no row of 30_encoding.md R66. -/
  | unknownOpcode (op : Word)
deriving DecidableEq, Repr

/-- The word that two consecutive bytes hold: the lower address has the high byte (20_memory.md R41). -/
def wordOfBytes (hi lo : Byte) : Word := hi ++ lo

/-- Decode the instruction at the head of any sequence of bytes, and give the rest back. -/
def decode : List Byte → Except DecodeError (Instr × List Byte)
  | hi :: lo :: rest =>
    match decodeWord (wordOfBytes hi lo) with
    | some i => .ok (i, rest)
    | none   => .error (.unknownOpcode (wordOfBytes hi lo))
  | _ => .error .truncated

/-! ### The encoder -/

/-- A register selector as its 4-bit field. -/
def nibble (x : RegIx) : BitVec 4 := BitVec.ofNat 4 x.val

/-- Format `F_XNN` (30_encoding.md R61). -/
def formXNN (top : BitVec 4) (x : RegIx) (nn : Byte) : Word := top ++ nibble x ++ nn

/-- Formats `F_XY` and `F_XYN` (30_encoding.md R61). -/
def formXYN (top : BitVec 4) (x y : RegIx) (n : BitVec 4) : Word := top ++ nibble x ++ nibble y ++ n

/-- Format `F_NNN` (30_encoding.md R61). -/
def formNNN (top : BitVec 4) (nnn : BitVec 12) : Word := top ++ nnn

/-- The instruction word, from the pattern column of 30_encoding.md R66; Y of `SHR` and `SHL` is written as 0 (R71). -/
def encode : Instr → Word
  | .cls          => 0x00E0#16
  | .ret          => 0x00EE#16
  | .jp nnn       => formNNN 0x1#4 nnn
  | .call nnn     => formNNN 0x2#4 nnn
  | .seImm x nn   => formXNN 0x3#4 x nn
  | .sneImm x nn  => formXNN 0x4#4 x nn
  | .seReg x y    => formXYN 0x5#4 x y 0x0#4
  | .ldImm x nn   => formXNN 0x6#4 x nn
  | .addImm x nn  => formXNN 0x7#4 x nn
  | .ldReg x y    => formXYN 0x8#4 x y 0x0#4
  | .orReg x y    => formXYN 0x8#4 x y 0x1#4
  | .andReg x y   => formXYN 0x8#4 x y 0x2#4
  | .xorReg x y   => formXYN 0x8#4 x y 0x3#4
  | .addReg x y   => formXYN 0x8#4 x y 0x4#4
  | .subReg x y   => formXYN 0x8#4 x y 0x5#4
  | .shr x        => formXYN 0x8#4 x 0 0x6#4
  | .subnReg x y  => formXYN 0x8#4 x y 0x7#4
  | .shl x        => formXYN 0x8#4 x 0 0xE#4
  | .sneReg x y   => formXYN 0x9#4 x y 0x0#4
  | .ldI nnn      => formNNN 0xA#4 nnn
  | .jpV0 nnn     => formNNN 0xB#4 nnn
  | .rnd x nn     => formXNN 0xC#4 x nn
  | .drw x y n    => formXYN 0xD#4 x y (BitVec.ofNat 4 n)
  | .skp x        => formXNN 0xE#4 x 0x9E#8
  | .sknp x       => formXNN 0xE#4 x 0xA1#8
  | .ldVxDt x     => formXNN 0xF#4 x 0x07#8
  | .ldVxKey x    => formXNN 0xF#4 x 0x0A#8
  | .ldDtVx x     => formXNN 0xF#4 x 0x15#8
  | .ldStVx x     => formXNN 0xF#4 x 0x18#8
  | .addI x       => formXNN 0xF#4 x 0x1E#8
  | .ldFont x     => formXNN 0xF#4 x 0x29#8
  | .ldBcd x      => formXNN 0xF#4 x 0x33#8
  | .storeRegs x  => formXNN 0xF#4 x 0x55#8
  | .loadRegs x   => formXNN 0xF#4 x 0x65#8

/-- The two bytes of a word as the memory array holds them, high byte first (20_memory.md R41). -/
def bytesOfWord (w : Word) : List Byte := [w.extractLsb' 8 8, w.extractLsb' 0 8]

/-! ### The opcode table as match and mask -/

/-- The match and the mask of every row of 30_encoding.md R66 (spec/opcode_table.json), in the table's order: a word `op` is of the
row when `op &&& mask = match`. -/
def opcodeTable : List (Word × Word) :=
  [(0x00E0#16, 0xFFFF#16), (0x00EE#16, 0xFFFF#16), (0x1000#16, 0xF000#16), (0x2000#16, 0xF000#16), (0x3000#16, 0xF000#16),
   (0x4000#16, 0xF000#16), (0x5000#16, 0xF00F#16), (0x6000#16, 0xF000#16), (0x7000#16, 0xF000#16), (0x8000#16, 0xF00F#16),
   (0x8001#16, 0xF00F#16), (0x8002#16, 0xF00F#16), (0x8003#16, 0xF00F#16), (0x8004#16, 0xF00F#16), (0x8005#16, 0xF00F#16),
   (0x8006#16, 0xF00F#16), (0x8007#16, 0xF00F#16)] ++
  [(0x800E#16, 0xF00F#16), (0x9000#16, 0xF00F#16), (0xA000#16, 0xF000#16), (0xB000#16, 0xF000#16), (0xC000#16, 0xF000#16),
   (0xD000#16, 0xF000#16), (0xE09E#16, 0xF0FF#16), (0xE0A1#16, 0xF0FF#16), (0xF007#16, 0xF0FF#16), (0xF00A#16, 0xF0FF#16),
   (0xF015#16, 0xF0FF#16), (0xF018#16, 0xF0FF#16), (0xF01E#16, 0xF0FF#16), (0xF029#16, 0xF0FF#16), (0xF033#16, 0xF0FF#16),
   (0xF055#16, 0xF0FF#16), (0xF065#16, 0xF0FF#16)]

/-- The word is of the row. -/
def matchesRow (op : Word) (row : Word × Word) : Bool := op &&& row.2 == row.1

/-- The word is of some row: it is an instruction (30_encoding.md R64). -/
def legalWord (op : Word) : Bool := opcodeTable.any (matchesRow op)

/-- The number of the instruction's row in 30_encoding.md R66, counted from 1. -/
def Instr.row : Instr → Nat
  | .cls => 1 | .ret => 2 | .jp _ => 3 | .call _ => 4 | .seImm _ _ => 5 | .sneImm _ _ => 6 | .seReg _ _ => 7
  | .ldImm _ _ => 8 | .addImm _ _ => 9 | .ldReg _ _ => 10 | .orReg _ _ => 11 | .andReg _ _ => 12 | .xorReg _ _ => 13
  | .addReg _ _ => 14 | .subReg _ _ => 15 | .shr _ => 16 | .subnReg _ _ => 17 | .shl _ => 18 | .sneReg _ _ => 19
  | .ldI _ => 20 | .jpV0 _ => 21 | .rnd _ _ => 22 | .drw _ _ _ => 23 | .skp _ => 24 | .sknp _ => 25 | .ldVxDt _ => 26
  | .ldVxKey _ => 27 | .ldDtVx _ => 28 | .ldStVx _ => 29 | .addI _ => 30 | .ldFont _ => 31 | .ldBcd _ => 32
  | .storeRegs _ => 33 | .loadRegs _ => 34

/-! ### The host's question -/

/-- The instruction the decoder reads from an instruction whose table bits are `w`: one 16-bit word, every bit above `nbits` 0,
laid out as memory holds it. -/
def decodeTableWord (nbits w : Nat) : Option Instr :=
  match decode (bytesOfWord (BitVec.ofNat 16 (w % 2 ^ nbits))) with
  | .ok (i, _) => some i
  | .error _   => none

end Sys2Proof
end

