-- ==== Sys2Proof/Config.lean ====
section
/-! DEFINITION. What an implementation of the engine fixes (the parameters that 00_scope.md R2 marks "configuration"), and the
values the spec leaves free. The values this hardware takes are `Machine.hardware` (Machine/Params.lean). -/

namespace Sys2Proof

/-- What `DRW` does with a pixel past column 63 or row 31 (44_display.md R164). -/
inductive EdgePolicy where
  /-- Row and column wrap around separately. -/
  | wrap
  /-- The pixel is neither tested nor toggled. -/
  | clip
deriving DecidableEq, Repr

/-- How a step resolves a key wait (40_cycle.md R87, `KEY_WAIT` of 00_scope.md R2). The spec describes one policy. -/
inductive KeyWait where
  /-- A key that is down now ends the wait; of several the lowest index wins. -/
  | levelLowestIndex
deriving DecidableEq, Repr

/-- The configuration record of 00_scope.md R2. -/
structure Config where
  /-- The font bytes, glyph 0 row 0 first (10_state.md R16). -/
  font       : List Byte
  /-- `EDGE_POLICY` (44_display.md R164). -/
  edgePolicy : EdgePolicy
  /-- `KEY_WAIT` (40_cycle.md R87). -/
  keyWait    : KeyWait
deriving DecidableEq, Repr

/-- The four atomic events by which the host drives the core (00_scope.md R6, 40_cycle.md R80). -/
inductive Machine.Event where
  | reset
  | load (bytes : List Byte)
  | step (keys : BitVec 16) (rnd : Byte)
  | tick
deriving DecidableEq, Repr, Inhabited

/-- FREE VALUE (log entry 1). The event the host issues when State lists none; the argument numbers those events. It may be any of the
four, with any image, key vector and random byte, so every infinite sequence is one of its values (00_scope.md R6, 60_exceptions.md
R205, 10_state.md R27, R28). -/
opaque Config.freeEvent : Nat → Machine.Event

/-- FREE VALUE (log entry 5). The key vector of a step added to run an instruction the host has placed, a fresh one for each such step
(10_state.md R27). -/
opaque Config.freeKeys : Nat → BitVec 16

/-- FREE VALUE (log entry 5). The random byte of that step, a fresh one for each such step (10_state.md R28). -/
opaque Config.freeRandom : Nat → Byte

end Sys2Proof
end

