-- ==== Sys2Proof/Machine/Params.lean ====
section
/-! DEFINITION. The parameters of this hardware (00_scope.md R2): the fixed ones as constants, the configuration as one record. -/

namespace Sys2Proof.Machine

/-- `MEM_SIZE`: 4096 bytes (10_state.md R14). -/
def memSize : Nat := 4096

/-- `PROGRAM_BASE` = `PC_RESET` = 0x200 (10_state.md R17). -/
def programBase : Nat := 0x200

/-- `PROGRAM_MAX` = 4096 - 512 bytes (60_exceptions.md R199). -/
def programMax : Nat := 3584

/-- `FONT_BASE` (10_state.md R16). -/
def fontBase : Nat := 0x050

/-- Bytes, and rows, of one glyph (10_state.md R16). -/
def glyphBytes : Nat := 5

/-- `FONT[0..79]`, one line per digit (10_state.md R16). -/
def fontBytes : List Byte :=
  [0xF0, 0x90, 0x90, 0x90, 0xF0] ++
  [0x20, 0x60, 0x20, 0x20, 0x70] ++
  [0xF0, 0x10, 0xF0, 0x80, 0xF0] ++
  [0xF0, 0x10, 0xF0, 0x10, 0xF0] ++
  [0x90, 0x90, 0xF0, 0x10, 0x10] ++
  [0xF0, 0x80, 0xF0, 0x10, 0xF0] ++
  [0xF0, 0x80, 0xF0, 0x90, 0xF0] ++
  [0xF0, 0x10, 0x20, 0x40, 0x40] ++
  [0xF0, 0x90, 0xF0, 0x90, 0xF0] ++
  [0xF0, 0x90, 0xF0, 0x10, 0xF0] ++
  [0xF0, 0x90, 0xF0, 0x90, 0x90] ++
  [0xE0, 0x90, 0xE0, 0x90, 0xE0] ++
  [0xF0, 0x80, 0x80, 0x80, 0xF0] ++
  [0xE0, 0x90, 0x90, 0x90, 0xE0] ++
  [0xF0, 0x80, 0xF0, 0x80, 0xF0] ++
  [0xF0, 0x80, 0xF0, 0x80, 0x80]

/-- The configuration of this hardware (00_scope.md R2). -/
def hardware : Config :=
  { font := fontBytes, edgePolicy := .wrap, keyWait := .levelLowestIndex }

end Sys2Proof.Machine
end

