-- ==== Sys2Proof/Machine/State.lean ====
section
/-! DEFINITION. The state of the machine (10_state.md section 1), the reasons a step could stop, and the state after reset (R29). -/

namespace Sys2Proof.Machine

/-- The causes of a fault that halts the engine (60_exceptions.md R181, codes 1 to 7). -/
inductive Cause where
  | invalidFetch
  | unknownOpcode
  | stackOverflow
  | stackUnderflow
  | invalidDigit
  | invalidAccess
  | invalidKey
deriving DecidableEq, Repr

/-- The run state of the engine (10_state.md R25). -/
inductive Mode where
  /-- The next step fetches and executes an instruction. -/
  | running
  /-- `LD Vx,K` has executed and no key has been seen yet; `x` will receive the key's index. -/
  | awaitingKey (x : RegIx)
  /-- A fault was raised; only a reset leaves this mode. -/
  | halted (cause : Cause)
deriving DecidableEq, Repr

/-- What a `load` answers the host (60_exceptions.md R192, R199). -/
inductive LoadAnswer where
  | accepted
  | imageTooLarge
deriving DecidableEq, Repr

/-- 32 rows of 64 pixels, `true` = on (10_state.md R23). -/
abbrev Framebuffer := Vector (Vector Bool 64) 32

/-- The memory array: the bytes that differ from what an unlisted address reads as (`Memory.unlisted`), addresses strictly rising
(`Memory.wf`). -/
abbrev Memory := List Host.Cell

/-- Everything the spec gives the machine (10_state.md section 1), and the model's own fields for its ports (log entries 1 to 3). -/
structure State where
  /-- The memory array (R14). -/
  mem        : Memory
  /-- The general registers V0 .. VF; VF is also the flag (R10, R13). -/
  v          : Vector Byte 16
  /-- The index register I (R19). -/
  i          : Word
  /-- The program counter (R17). -/
  pc         : Word
  /-- The call stack (R20). -/
  stack      : Vector Word 16
  /-- The number of return addresses on the stack, 0 .. 16 (R21). -/
  sp         : Fin 17
  /-- The delay timer (R22). -/
  dt         : Byte
  /-- The sound timer (R22). -/
  st         : Byte
  /-- The framebuffer (R23). -/
  fb         : Framebuffer
  /-- The last fetched instruction word (R24). -/
  opcode     : Word
  /-- The run state (R25). -/
  mode       : Mode
  /-- Input port: the key vector of the step being executed, bit k for key k (R27). -/
  keys       : BitVec 16
  /-- Input port: the random byte of the step being executed (R28). -/
  rnd        : Byte
  /-- Output port: the answer of the latest load (60_exceptions.md R201(d)). -/
  loadAnswer : Option LoadAnswer
  /-- The host's coming events as far as they are listed, the next one first; free events follow them (00_scope.md R6). -/
  events     : List Event
  /-- The number of events and placed steps (log entry 5) that came from the free values of Config. -/
  draws      : Nat
deriving DecidableEq, Repr

/-- No step of this machine stops: every fault of the spec leaves the state that 60_exceptions.md R186 describes, which is a next
state in mode `Halted` (log entry 4). So there is no constructor. -/
inductive Fault
deriving DecidableEq, Repr

/-- Why a step has no meaning. -/
inductive Refusal where
  /-- Raised by an arm of `exec` whose instruction has no meaning yet; no arm raises it now. Safe: the machine stops. -/
  | notModelled (mnemonic : String)
deriving DecidableEq, Repr

/-- The machine right after `reset` (10_state.md R29). Memory lists nothing: every byte reads as its reset content. The last five
fields are the model's own (log entry 2). -/
def State.reset : State :=
  { mem        := []
    v          := Vector.replicate 16 0
    i          := 0
    pc         := BitVec.ofNat 16 programBase
    stack      := Vector.replicate 16 0
    sp         := 0
    dt         := 0
    st         := 0
    fb         := Vector.replicate 32 (Vector.replicate 64 false)
    opcode     := 0
    mode       := .running
    keys       := 0
    rnd        := 0
    loadAnswer := none
    events     := []
    draws      := 0 }

end Sys2Proof.Machine
end

