-- ==== Sys2Proof/Machine/Ops.lean ====
section
/-! DEFINITION. The named operations over memory, registers, framebuffer and program counter, and taking a fault. -/

namespace Sys2Proof.Machine

/-! ### Memory array (10_state.md R14 to R16, 20_memory.md) -/

/-- What an address that the list does not hold reads as: its reset content, the font at 0x050 .. 0x09F and 0 elsewhere
(10_state.md R15, R16, R29). -/
def Memory.unlisted (a : Nat) : Byte :=
  if fontBase ≤ a then hardware.font.getD (a - fontBase) 0 else 0

/-- The byte at an address, with no check (`mem[a]` of 00_scope.md R5). -/
def Memory.read : Memory → Nat → Byte
  | [], a => Memory.unlisted a
  | (k, b) :: m, a => if a = k then b else Memory.read m a

/-- Put an entry before the first one of a higher address. -/
def Memory.insert (a : Nat) (b : Byte) : Memory → Memory
  | [] => [(a, b)]
  | (k, c) :: m => if a < k then (a, b) :: (k, c) :: m else (k, c) :: Memory.insert a b m

/-- Drop the entries of an address. -/
def Memory.erase (a : Nat) (m : Memory) : Memory := m.filter (fun e => e.1 != a)

/-- Write one byte, with no check (`mem[a] <- b` of 00_scope.md R5), keeping the canonical form. -/
def Memory.write (m : Memory) (a : Nat) (b : Byte) : Memory :=
  if b = Memory.unlisted a then Memory.erase a m else Memory.insert a b (Memory.erase a m)

/-- Write bytes at consecutive rising addresses (20_memory.md R42). -/
def Memory.writeList (m : Memory) (a : Nat) : List Byte → Memory
  | [] => m
  | b :: bs => Memory.writeList (m.write a b) (a + 1) bs

/-- The canonical form: addresses strictly rising, all inside the array, no entry equal to what its address reads as unlisted. -/
abbrev Memory.wf (m : Memory) : Prop :=
  m.Pairwise (fun e f => e.1 < f.1) ∧ ∀ e ∈ m, e.1 < memSize ∧ e.2 ≠ Memory.unlisted e.1

/-- The bytes at n consecutive addresses. -/
def Memory.bytes (m : Memory) (a n : Nat) : List Byte := (List.range n).map (fun j => m.read (a + j))

/-- `MemRead(a, n)` (20_memory.md R46); `none` is `InvalidAccess`. The sum is an integer, it does not wrap (R48). -/
def memRead (a n : Nat) (s : State) : Option (List Byte) :=
  if 0 < n ∧ memSize < a + n then none else some (s.mem.bytes a n)

/-- `MemWrite(a, n, bytes)` with n the number of bytes (20_memory.md R47); `none` is `InvalidAccess`, with nothing written. -/
def memWrite (a : Nat) (bytes : List Byte) (s : State) : Option State :=
  if memSize < a + bytes.length then none else some { s with mem := s.mem.writeList a bytes }

/-- `Fetch(PC)` (20_memory.md R45, R41); `none` is `InvalidFetch`. -/
def fetch (s : State) : Option Word :=
  if memSize ≤ s.pc.toNat + 1 then none
  else some (wordOfBytes (s.mem.read s.pc.toNat) (s.mem.read (s.pc.toNat + 1)))

/-! ### General registers (10_state.md R10) -/

/-- VF, the register that is also the flag (10_state.md R13). -/
def vf : RegIx := 15

/-- Read `V[x]`. -/
def State.getV (s : State) (x : RegIx) : Byte := s.v.get x

/-- `V[x] <- b`. -/
def State.setV (s : State) (x : RegIx) (b : Byte) : State := { s with v := s.v.set x.val b x.isLt }

/-- `V[k] <- b0, V[k+1] <- b1, ...`; there is no register above VF. -/
def State.setVs (s : State) (k : Nat) : List Byte → State
  | [] => s
  | b :: bs => State.setVs (if h : k < 16 then s.setV ⟨k, h⟩ b else s) (k + 1) bs

/-! ### Program counter (10_state.md R17, R18) -/

/-- Latch the fetched word and advance PC by 2 (40_cycle.md R82, R83). -/
def State.latch (s : State) (w : Word) : State := { s with opcode := w, pc := s.pc + 2 }

/-- A further advance by 2 when the condition holds (41_control_flow.md R104). -/
def State.skipIf (s : State) (c : Bool) : State := { s with pc := if c then s.pc + 2 else s.pc }

/-- `PC <- target`. -/
def State.jump (s : State) (target : Word) : State := { s with pc := target }

/-! ### Framebuffer (10_state.md R23, 44_display.md) -/

/-- Every pixel off. -/
def Framebuffer.clear : Framebuffer := Vector.replicate 32 (Vector.replicate 64 false)

/-- The pixel at row r, column c. -/
def Framebuffer.pixel (fb : Framebuffer) (r : Fin 32) (c : Fin 64) : Bool := (fb.get r).get c

/-- Set the pixel at row r, column c. -/
def Framebuffer.setPixel (fb : Framebuffer) (r : Fin 32) (c : Fin 64) (on : Bool) : Framebuffer :=
  fb.set r.val ((fb.get r).set c.val on c.isLt) r.isLt

/-- Test and toggle one pixel; the flag collects whether any was on (44_display.md R162). -/
def togglePixel (acc : Framebuffer × Bool) (p : Fin 32 × Fin 64) : Framebuffer × Bool :=
  (Framebuffer.setPixel acc.1 p.1 p.2 (!(Framebuffer.pixel acc.1 p.1 p.2)), acc.2 || Framebuffer.pixel acc.1 p.1 p.2)

/-- XOR-draw: toggle the given pixels in order, and say whether one of them was on. -/
def xorDraw (fb : Framebuffer) (pixels : List (Fin 32 × Fin 64)) : Framebuffer × Bool :=
  pixels.foldl togglePixel (fb, false)

/-! ### Taking a fault (60_exceptions.md R186) -/

/-- `raise <Cause>`: the mode becomes `Halted(cause)` and nothing else changes. PC and opcode keep what fetch and advance wrote. There
is no way back from a fault but `reset` (R189), so no return stands beside it. -/
def State.raise (s : State) (c : Cause) : State := { s with mode := .halted c }

/-- The state an operation gives, or the fault when it gives none; either way a next state. -/
def orRaise (s : State) (c : Cause) (r : Option State) : Host.Outcome State Fault Refusal :=
  .next (r.getD (s.raise c))

/-- The numeric code of a cause (60_exceptions.md R181). -/
def Cause.code : Cause → Nat
  | .invalidFetch => 1
  | .unknownOpcode => 2
  | .stackOverflow => 3
  | .stackUnderflow => 4
  | .invalidDigit => 5
  | .invalidAccess => 6
  | .invalidKey => 7

/-- The status code of a mode: 0 is "no fault" (60_exceptions.md R181). -/
def Mode.code : Mode → Nat
  | .halted c => c.code
  | .running => 0
  | .awaitingKey _ => 0

/-- The code of a load's answer (60_exceptions.md R181). -/
def LoadAnswer.code : LoadAnswer → Nat
  | .accepted => 0
  | .imageTooLarge => 8

end Sys2Proof.Machine
end

