-- ==== Sys2Proof/Machine/Operands.lean ====
section
/-! DEFINITION. The operand forms: immediates, the one data address, and the values that go to memory, the screen and the keys. -/

namespace Sys2Proof.Machine

/-- `zext_16(NNN)` (30_encoding.md R62). -/
def zextAddr (nnn : BitVec 12) : Word := nnn.setWidth 16

/-- `zext_16(b)` of a byte (00_scope.md R4). -/
def zextByte (b : Byte) : Word := b.setWidth 16

/-- The base of every data access: the full 16-bit I, as an integer (20_memory.md R48, 43_index_memory.md R140). -/
def dataBase (s : State) : Nat := s.i.toNat

/-- The bytes `LD [I],Vx` stores: V0 .. VX (43_index_memory.md R145). -/
def regsUpTo (s : State) (x : RegIx) : List Byte := s.v.toList.take (x.val + 1)

/-- Hundreds, tens and units of a byte (43_index_memory.md R144). -/
def bcdDigits (b : Byte) : List Byte :=
  [BitVec.ofNat 8 (b.toNat / 100), BitVec.ofNat 8 (b.toNat / 10 % 10), BitVec.ofNat 8 (b.toNat % 10)]

/-- The address of a digit's glyph (43_index_memory.md R143). -/
def glyphAddress (d : Nat) : Word := BitVec.ofNat 16 (fontBase + glyphBytes * d)

/-- The column of a sprite's left edge: `V[X] mod 64` (44_display.md R162). -/
def spriteColumn (s : State) (x : RegIx) : Nat := (s.getV x).toNat % 64

/-- The row of a sprite's top edge: `V[Y] mod 32` (44_display.md R162). -/
def spriteRow (s : State) (y : RegIx) : Nat := (s.getV y).toNat % 32

/-- The pixel at an unreduced row and column under an edge policy (44_display.md R164). -/
def edgePixel (p : EdgePolicy) (r c : Nat) : Option (Fin 32 × Fin 64) :=
  match p with
  | .wrap => some (Fin.ofNat 32 r, Fin.ofNat 64 c)
  | .clip => if h : r < 32 ∧ c < 64 then some (⟨r, h.1⟩, ⟨c, h.2⟩) else none

/-- The pixels one sprite byte covers in row r, left to right: bit 7 is column offset 0 (44_display.md R163). -/
def bytePixels (p : EdgePolicy) (r c0 : Nat) (b : Byte) : List (Fin 32 × Fin 64) :=
  (List.range 8).filterMap (fun c => if b.getLsbD (7 - c) then edgePixel p r (c0 + c) else none)

/-- The pixels of the 1 bits of a sprite whose top left corner is at row r0, column c0, row by row (44_display.md R162). -/
def spritePixels (p : EdgePolicy) (r0 c0 : Nat) : List Byte → List (Fin 32 × Fin 64)
  | [] => []
  | b :: bs => bytePixels p r0 c0 b ++ spritePixels p (r0 + 1) c0 bs

/-- Key k is down in the key vector of this step (10_state.md R27). -/
def keyDown (s : State) (k : Nat) : Bool := s.keys.getLsbD k

/-- The key that ends a key wait: under the one policy of the spec the lowest index that is down (40_cycle.md R87). -/
def resolvingKey (p : KeyWait) (keys : BitVec 16) : Option Nat :=
  match p with
  | .levelLowestIndex => (List.range 16).find? (fun k => keys.getLsbD k)

end Sys2Proof.Machine
end

