-- ==== Sys2Proof/Machine/Flags.lean ====
section
/-! DEFINITION. The values VF receives as a side effect (10_state.md R13) and the order in which flag and result are written. -/

namespace Sys2Proof.Machine

/-- A flag value is 0 or 1 (10_state.md R13). -/
def flagOf (c : Bool) : Byte := if c then 1 else 0

/-- Carry out of bit 7: 1 iff a + b > 255 (42_alu.md R126). -/
def carryFlag (a b : Byte) : Byte := flagOf (decide (255 < a.toNat + b.toNat))

/-- Not-borrow of a - b: 1 iff a >= b (42_alu.md R127, R129). -/
def notBorrowFlag (a b : Byte) : Byte := flagOf (decide (b.toNat ≤ a.toNat))

/-- The bit a right shift drops (42_alu.md R128). -/
def lowBitFlag (a : Byte) : Byte := flagOf (a.getLsbD 0)

/-- The bit a left shift drops (42_alu.md R130). -/
def highBitFlag (a : Byte) : Byte := flagOf (a.getLsbD 7)

/-- `VF <- flag` first, `V[x] <- result` second: with x = 15 the result wins (40_cycle.md R86). -/
def flagThenResult (s : State) (x : RegIx) (flag result : Byte) : State := (s.setV vf flag).setV x result

end Sys2Proof.Machine
end

