-- ==== Sys2Proof/Machine/Alu.lean ====
section
/-! DEFINITION. Register load, arithmetic, logic, shift and random instructions (42_alu.md). Every meaning takes the state after fetch
and advance (40_cycle.md R85); all operands are read from it before anything is written (R86). -/

namespace Sys2Proof.Machine

/-- `LD Vx,NN` (42_alu.md R120). -/
def execLdImm (x : RegIx) (nn : Byte) (s : State) : Host.Outcome State Fault Refusal :=
  .next (s.setV x nn)

/-- `ADD Vx,NN` (42_alu.md R121): no flag. -/
def execAddImm (x : RegIx) (nn : Byte) (s : State) : Host.Outcome State Fault Refusal :=
  .next (s.setV x (s.getV x + nn))

/-- `LD Vx,Vy` (42_alu.md R122). -/
def execLdReg (x y : RegIx) (s : State) : Host.Outcome State Fault Refusal :=
  .next (s.setV x (s.getV y))

/-- `OR Vx,Vy` (42_alu.md R123): VF is not a side effect. -/
def execOrReg (x y : RegIx) (s : State) : Host.Outcome State Fault Refusal :=
  .next (s.setV x (s.getV x ||| s.getV y))

/-- `AND Vx,Vy` (42_alu.md R124). -/
def execAndReg (x y : RegIx) (s : State) : Host.Outcome State Fault Refusal :=
  .next (s.setV x (s.getV x &&& s.getV y))

/-- `XOR Vx,Vy` (42_alu.md R125). -/
def execXorReg (x y : RegIx) (s : State) : Host.Outcome State Fault Refusal :=
  .next (s.setV x (s.getV x ^^^ s.getV y))

/-- `ADD Vx,Vy` (42_alu.md R126). -/
def execAddReg (x y : RegIx) (s : State) : Host.Outcome State Fault Refusal :=
  .next (flagThenResult s x (carryFlag (s.getV x) (s.getV y)) (s.getV x + s.getV y))

/-- `SUB Vx,Vy` (42_alu.md R127). -/
def execSubReg (x y : RegIx) (s : State) : Host.Outcome State Fault Refusal :=
  .next (flagThenResult s x (notBorrowFlag (s.getV x) (s.getV y)) (s.getV x - s.getV y))

/-- `SHR Vx` (42_alu.md R128). -/
def execShr (x : RegIx) (s : State) : Host.Outcome State Fault Refusal :=
  .next (flagThenResult s x (lowBitFlag (s.getV x)) (s.getV x >>> 1))

/-- `SUBN Vx,Vy` (42_alu.md R129). -/
def execSubnReg (x y : RegIx) (s : State) : Host.Outcome State Fault Refusal :=
  .next (flagThenResult s x (notBorrowFlag (s.getV y) (s.getV x)) (s.getV y - s.getV x))

/-- `SHL Vx` (42_alu.md R130). -/
def execShl (x : RegIx) (s : State) : Host.Outcome State Fault Refusal :=
  .next (flagThenResult s x (highBitFlag (s.getV x)) (s.getV x <<< 1))

/-- `RND Vx,NN` (42_alu.md R131): the random byte is this step's free input (10_state.md R28). -/
def execRnd (x : RegIx) (nn : Byte) (s : State) : Host.Outcome State Fault Refusal :=
  .next (s.setV x (s.rnd &&& nn))

end Sys2Proof.Machine
end

