-- ==== Sys2Proof/Machine/ControlFlow.lean ====
section
/-! DEFINITION. Jump, call, return and skip (41_control_flow.md). `s.pc` is the post-advance value, the instruction's address plus 2
(R100, 40_cycle.md R83). -/

namespace Sys2Proof.Machine

/-- Push a return address (41_control_flow.md R103); `none` is `StackOverflow`. -/
def pushReturn (a : Word) (s : State) : Option State :=
  if h : s.sp.val < 16 then
    some { s with stack := s.stack.set s.sp.val a h, sp := ⟨s.sp.val + 1, by omega⟩ }
  else none

/-- The address pushed last, and the state with it popped; the slot keeps its value (41_control_flow.md R101); `none` is
`StackUnderflow`. -/
def popReturn (s : State) : Option (Word × State) :=
  if h : 0 < s.sp.val then
    some (s.stack[s.sp.val - 1]'(by omega), { s with sp := ⟨s.sp.val - 1, by omega⟩ })
  else none

/-- `RET` (41_control_flow.md R101). -/
def execRet (s : State) : Host.Outcome State Fault Refusal :=
  orRaise s .stackUnderflow ((popReturn s).map (fun p => p.2.jump p.1))

/-- `JP NNN` (41_control_flow.md R102): the target is not checked. -/
def execJp (nnn : BitVec 12) (s : State) : Host.Outcome State Fault Refusal :=
  .next (s.jump (zextAddr nnn))

/-- `CALL NNN` (41_control_flow.md R103). -/
def execCall (nnn : BitVec 12) (s : State) : Host.Outcome State Fault Refusal :=
  orRaise s .stackOverflow ((pushReturn s.pc s).map (fun t => t.jump (zextAddr nnn)))

/-- `SE Vx,NN` (41_control_flow.md R104). -/
def execSeImm (x : RegIx) (nn : Byte) (s : State) : Host.Outcome State Fault Refusal :=
  .next (s.skipIf (s.getV x == nn))

/-- `SNE Vx,NN` (41_control_flow.md R105). -/
def execSneImm (x : RegIx) (nn : Byte) (s : State) : Host.Outcome State Fault Refusal :=
  .next (s.skipIf (s.getV x != nn))

/-- `SE Vx,Vy` (41_control_flow.md R106). -/
def execSeReg (x y : RegIx) (s : State) : Host.Outcome State Fault Refusal :=
  .next (s.skipIf (s.getV x == s.getV y))

/-- `SNE Vx,Vy` (41_control_flow.md R107). -/
def execSneReg (x y : RegIx) (s : State) : Host.Outcome State Fault Refusal :=
  .next (s.skipIf (s.getV x != s.getV y))

/-- `JP V0,NNN` (41_control_flow.md R108): the sum is not reduced modulo 4096. -/
def execJpV0 (nnn : BitVec 12) (s : State) : Host.Outcome State Fault Refusal :=
  .next (s.jump (zextAddr nnn + zextByte (s.getV 0)))

end Sys2Proof.Machine
end

