-- ==== Sys2Proof/Machine/Display.lean ====
section
/-! DEFINITION. Display instructions (44_display.md). -/

namespace Sys2Proof.Machine

/-- `CLS` (44_display.md R161). -/
def execCls (s : State) : Host.Outcome State Fault Refusal :=
  .next { s with fb := Framebuffer.clear }

/-- Draw the sprite's pixels and write the collision flag (44_display.md R162, R165). -/
def drawPixels (s : State) (pixels : List (Fin 32 × Fin 64)) : State :=
  State.setV { s with fb := (xorDraw s.fb pixels).1 } vf (flagOf (xorDraw s.fb pixels).2)

/-- `DRW Vx,Vy,N` (44_display.md R162): the coordinates and the sprite are read before the framebuffer and VF are written. -/
def execDrw (x y : RegIx) (n : Nat) (s : State) : Host.Outcome State Fault Refusal :=
  orRaise s .invalidAccess
    ((memRead (dataBase s) n s).map (fun sprite =>
      drawPixels s (spritePixels hardware.edgePolicy (spriteRow s y) (spriteColumn s x) sprite)))

end Sys2Proof.Machine
end

