-- ==== Sys2Proof/Machine/IndexMemory.lean ====
section
/-! DEFINITION. Index-register and memory instructions (43_index_memory.md). None of the memory instructions changes I (R147). -/

namespace Sys2Proof.Machine

/-- `LD I,NNN` (43_index_memory.md R141). -/
def execLdI (nnn : BitVec 12) (s : State) : Host.Outcome State Fault Refusal :=
  .next { s with i := zextAddr nnn }

/-- `ADD I,Vx` (43_index_memory.md R142): modulo 65536, no flag. -/
def execAddI (x : RegIx) (s : State) : Host.Outcome State Fault Refusal :=
  .next { s with i := s.i + zextByte (s.getV x) }

/-- `LD F,Vx` (43_index_memory.md R143): the whole byte is tested, it is not masked. -/
def execLdFont (x : RegIx) (s : State) : Host.Outcome State Fault Refusal :=
  orRaise s .invalidDigit
    (if 15 < (s.getV x).toNat then none else some { s with i := glyphAddress (s.getV x).toNat })

/-- `LD B,Vx` (43_index_memory.md R144). -/
def execLdBcd (x : RegIx) (s : State) : Host.Outcome State Fault Refusal :=
  orRaise s .invalidAccess (memWrite (dataBase s) (bcdDigits (s.getV x)) s)

/-- `LD [I],Vx` (43_index_memory.md R145). -/
def execStoreRegs (x : RegIx) (s : State) : Host.Outcome State Fault Refusal :=
  orRaise s .invalidAccess (memWrite (dataBase s) (regsUpTo s x) s)

/-- `LD Vx,[I]` (43_index_memory.md R146): all bytes are read before a register is written. -/
def execLoadRegs (x : RegIx) (s : State) : Host.Outcome State Fault Refusal :=
  orRaise s .invalidAccess ((memRead (dataBase s) (x.val + 1) s).map (s.setVs 0))

end Sys2Proof.Machine
end

