-- ==== Sys2Proof/Machine/TimerKeypad.lean ====
section
/-! DEFINITION. Timer and keypad instructions (45_timer_keypad.md). -/

namespace Sys2Proof.Machine

/-- `LD Vx,DT` (45_timer_keypad.md R170). -/
def execLdVxDt (x : RegIx) (s : State) : Host.Outcome State Fault Refusal :=
  .next (s.setV x s.dt)

/-- `LD DT,Vx` (45_timer_keypad.md R171). -/
def execLdDtVx (x : RegIx) (s : State) : Host.Outcome State Fault Refusal :=
  .next { s with dt := s.getV x }

/-- `LD ST,Vx` (45_timer_keypad.md R172). -/
def execLdStVx (x : RegIx) (s : State) : Host.Outcome State Fault Refusal :=
  .next { s with st := s.getV x }

/-- A skip that tests the key whose index a register holds; `none` is `InvalidKey` (45_timer_keypad.md R173, R174). -/
def skipOnKey (x : RegIx) (pressed : Bool) (s : State) : Option State :=
  if 15 < (s.getV x).toNat then none else some (s.skipIf (keyDown s (s.getV x).toNat == pressed))

/-- `SKP Vx` (45_timer_keypad.md R173). -/
def execSkp (x : RegIx) (s : State) : Host.Outcome State Fault Refusal :=
  orRaise s .invalidKey (skipOnKey x true s)

/-- `SKNP Vx` (45_timer_keypad.md R174). -/
def execSknp (x : RegIx) (s : State) : Host.Outcome State Fault Refusal :=
  orRaise s .invalidKey (skipOnKey x false s)

/-- `LD Vx,K` (45_timer_keypad.md R175): the executing step only enters the wait. -/
def execLdVxKey (x : RegIx) (s : State) : Host.Outcome State Fault Refusal :=
  .next { s with mode := .awaitingKey x }

end Sys2Proof.Machine
end

