-- ==== Sys2Proof/Machine/Events.lean ====
section
/-! DEFINITION. The host's four events (40_cycle.md R80): the step by mode (R81 to R91), tick, load and reset, and the ports. -/

namespace Sys2Proof.Machine

/-! ### The step (40_cycle.md) -/

/-- The cycle in mode `Running`: fetch, advance, decode, execute (40_cycle.md R82 to R85). -/
def cycle (s : State) : Host.Outcome State Fault Refusal :=
  match fetch s with
  | none => .next (s.raise .invalidFetch)
  | some w =>
    match decodeWord w with
    | none => .next ((s.latch w).raise .unknownOpcode)
    | some instr => exec instr (s.latch w)

/-- The step in mode `AwaitingKey(x)`: no fetch (40_cycle.md R87). -/
def resolveWait (x : RegIx) (s : State) : State :=
  match resolvingKey hardware.keyWait s.keys with
  | none => s
  | some k => { s.setV x (BitVec.ofNat 8 k) with mode := .running }

/-- What a step does in each mode, its inputs being at the ports (40_cycle.md R81, R88, R91). -/
def stepByMode (s : State) : Host.Outcome State Fault Refusal :=
  match s.mode with
  | .running => cycle s
  | .awaitingKey x => .next (resolveWait x s)
  | .halted _ => .next s

/-- The step's two inputs are put on their ports, where they stay for the length of the step (60_exceptions.md R200, R205). -/
def State.withInputs (s : State) (keys : BitVec 16) (rnd : Byte) : State := { s with keys := keys, rnd := rnd }

/-! ### Tick, load, reset -/

/-- One timer counts down and stops at 0 (60_exceptions.md R196). -/
def countDown (t : Byte) : Byte := if t = 0 then 0 else t - 1

/-- The `tick` event, in every mode (60_exceptions.md R196, R197). -/
def tickEvent (s : State) : State := { s with dt := countDown s.dt, st := countDown s.st }

/-- Whether an image fits the program space (60_exceptions.md R199). -/
def imageAnswer (bytes : List Byte) : LoadAnswer :=
  if programMax < bytes.length then .imageTooLarge else .accepted

/-- The `load` event, in every mode (60_exceptions.md R199). -/
def loadEvent (bytes : List Byte) (s : State) : State :=
  match imageAnswer bytes with
  | .imageTooLarge => { s with loadAnswer := some .imageTooLarge }
  | .accepted => { s with mem := s.mem.writeList programBase bytes, loadAnswer := some .accepted }

/-- The `reset` event, in every mode (70_reset_and_hazards.md R210). The host's own sequence of events goes on. -/
def resetEvent (s : State) : State := { State.reset with events := s.events, draws := s.draws }

/-! ### The host's sequence of events (log entry 1) -/

/-- The next event: the first one listed, or a free one of any kind when none is listed (60_exceptions.md R205). -/
def State.nextEvent (s : State) : Event :=
  match s.events with
  | [] => Config.freeEvent s.draws
  | e :: _ => e

/-- The state once the host has issued that event. -/
def State.takeEvent (s : State) : State :=
  match s.events with
  | [] => { s with draws := s.draws + 1 }
  | _ :: es => { s with events := es }

/-- What an event does (00_scope.md R6). -/
def applyEvent (e : Event) (s : State) : Host.Outcome State Fault Refusal :=
  match e with
  | .reset => .next (resetEvent s)
  | .load bytes => .next (loadEvent bytes s)
  | .step keys rnd => stepByMode (s.withInputs keys rnd)
  | .tick => .next (tickEvent s)

/-- The listed events from the first step on. -/
def fromFirstStep : List Event → List Event
  | [] => []
  | .step keys rnd :: es => .step keys rnd :: es
  | .reset :: es => fromFirstStep es
  | .load _ :: es => fromFirstStep es
  | .tick :: es => fromFirstStep es

/-- The state whose very next event is a step: the listed events from the first step on, or one step with free inputs. DESIGN CHOICE
(log entry 5): the spec numbers no inputs; those of a step added here are the free values of the counter, which advances, so that two
steps added one after the other have unrelated key vectors and random bytes (10_state.md R27, R28, 42_alu.md R131). -/
def State.stepNext (s : State) : State :=
  match fromFirstStep s.events with
  | [] => { s with events := [.step (Config.freeKeys s.draws) (Config.freeRandom s.draws)], draws := s.draws + 1 }
  | e :: es => { s with events := e :: es }

/-! ### The output ports (60_exceptions.md R201) -/

/-- What the host may read between events, without side effect. -/
structure Outputs where
  framebuffer : Framebuffer
  soundTimer  : Byte
  mode        : Mode
  loadAnswer  : Option LoadAnswer
deriving DecidableEq, Repr

/-- The outputs of a state. -/
def State.outputs (s : State) : Outputs :=
  { framebuffer := s.fb, soundTimer := s.st, mode := s.mode, loadAnswer := s.loadAnswer }

end Sys2Proof.Machine
end

