-- ==== Sys2Proof/Machine/Step.lean ====
section
/-! DEFINITION. One step of the model: the host's next event happens (00_scope.md R6), and how the host places an instruction. -/

namespace Sys2Proof.Machine

/-- One event of the host's sequence: the first one listed, or a free one of any kind (log entry 1). -/
def step (s : State) : Host.Outcome State Fault Refusal := applyEvent s.nextEvent s.takeEvent

/-- `s` with the instruction placed where the next step fetches (log entry 5). For the very next step to fetch at all, the mode is
`Running`, the next event is a step (the first one listed, or one with free inputs), and a PC from which nothing can be fetched (20_memory.md R45) becomes
the program base. -/
def State.withFetchWord (s : State) (nbits w : Nat) : State :=
  let word : Word := BitVec.ofNat 16 (w % 2 ^ nbits)
  let pc : Word := if s.pc.toNat + 1 < memSize then s.pc else BitVec.ofNat 16 programBase
  { s.stepNext with
    mem  := s.mem.writeList pc.toNat (bytesOfWord word)
    pc   := pc
    mode := .running }

end Sys2Proof.Machine
end

