-- ==== Sys2Proof/Safety.lean ====
section
/-! DEFINITION. The terms in which claims speak of the machine: what counts as a safe run, the invariant of reachable states, what a
change leaves alone, and the spec's own tables of who writes what and what faults when. -/

namespace Sys2Proof.Machine

/-! ### Safe runs and the invariant -/

/-- A run is safe as long as its states are not halted: `Halted` is never a good final state (92_eei_decisions.md D12). -/
def State.Safe (s : State) : Prop := ∀ c, s.mode ≠ .halted c

/-- The invariant of 10_state.md R30 (b) and (c), with the memory in canonical form; (a), SP in 0 .. 16, is the type of `sp`. -/
structure State.Inv (s : State) : Prop where
  /-- The memory list is canonical and inside the array. -/
  memory  : s.mem.wf
  /-- PC is at most 0xFFF + 0xFF. -/
  counter : s.pc.toNat ≤ 0x10FE
  /-- Every live stack entry was saved by a `CALL` and is at most 0x1000. -/
  returns : ∀ k : Fin 16, k.val < s.sp.val → (s.stack.get k).toNat ≤ 0x1000

/-! ### What a change leaves alone -/

/-- The elements of the state, taken apart as far as the spec does (10_state.md R31), and the model's own fields. -/
inductive Part where
  | byte (a : Nat)
  | reg (j : RegIx)
  | index
  | pc
  | slot (k : Fin 16)
  | sp
  | dt
  | st
  | pixel (r : Fin 32) (c : Fin 64)
  | opcode
  | mode
  | keyPort
  | rndPort
  | answer
  | events
  | draws
deriving DecidableEq, Repr

/-- The part reads the same in both states; a byte of memory by the model's read of one byte. -/
def Part.same (s t : State) : Part → Prop
  | .byte a => t.mem.read a = s.mem.read a
  | .reg j => t.getV j = s.getV j
  | .index => t.i = s.i
  | .pc => t.pc = s.pc
  | .slot k => t.stack.get k = s.stack.get k
  | .sp => t.sp = s.sp
  | .dt => t.dt = s.dt
  | .st => t.st = s.st
  | .pixel r c => Framebuffer.pixel t.fb r c = Framebuffer.pixel s.fb r c
  | .opcode => t.opcode = s.opcode
  | .mode => t.mode = s.mode
  | .keyPort => t.keys = s.keys
  | .rndPort => t.rnd = s.rnd
  | .answer => t.loadAnswer = s.loadAnswer
  | .events => t.events = s.events
  | .draws => t.draws = s.draws

/-- From `s` to `t` nothing changes but, at most, the parts named. -/
def ChangesOnly (changed : Part → Prop) (s t : State) : Prop := ∀ p, ¬changed p → p.same s t

/-- The state in which a step with these inputs begins: the event is taken and its inputs are at the ports. -/
def State.atStep (s : State) (keys : BitVec 16) (rnd : Byte) : State := s.takeEvent.withInputs keys rnd

/-- The machine is running and its next event is a step with these inputs. -/
def State.RunsStep (s : State) (keys : BitVec 16) (rnd : Byte) : Prop :=
  s.mode = .running ∧ s.nextEvent = .step keys rnd

/-- The sprite at I, drawn at (V[Y] mod 32, V[X] mod 64) and wrapped per pixel, covers the pixel at row r, column c
(44_display.md R162 to R164). -/
def SpriteCovers (s : State) (x y : RegIx) (n : Nat) (r : Fin 32) (c : Fin 64) : Prop :=
  ∃ j < n, ∃ k < 8, (s.mem.read (s.i.toNat + j)).getLsbD (7 - k) = true ∧
    ((s.getV y).toNat % 32 + j) % 32 = r.val ∧ ((s.getV x).toNat % 64 + k) % 64 = c.val

end Sys2Proof.Machine

/-! ### The spec's tables of what an instruction writes and when it faults -/

namespace Sys2Proof

/-- The instructions that write VF as a side effect (10_state.md R13). -/
def Instr.flagWriter : Instr → Bool
  | .addReg _ _ | .subReg _ _ | .shr _ | .subnReg _ _ | .shl _ | .drw _ _ _ => true
  | .cls | .ret | .jp _ | .call _ | .seImm _ _ | .sneImm _ _ | .seReg _ _ | .ldImm _ _ | .addImm _ _ | .ldReg _ _
  | .orReg _ _ | .andReg _ _ | .xorReg _ _ | .sneReg _ _ | .ldI _ | .jpV0 _ | .rnd _ _ | .skp _ | .sknp _ | .ldVxDt _
  | .ldVxKey _ | .ldDtVx _ | .ldStVx _ | .addI _ | .ldFont _ | .ldBcd _ | .storeRegs _ | .loadRegs _ => false

/-- The instruction's rule names register j as a destination. -/
def Instr.destination (i : Instr) (j : RegIx) : Prop :=
  match i with
  | .ldImm x _ | .addImm x _ | .ldReg x _ | .orReg x _ | .andReg x _ | .xorReg x _ | .addReg x _ | .subReg x _ | .shr x
  | .subnReg x _ | .shl x | .rnd x _ | .ldVxDt x => j = x
  | .loadRegs x => j ≤ x
  | .cls | .ret | .jp _ | .call _ | .seImm _ _ | .sneImm _ _ | .seReg _ _ | .sneReg _ _ | .ldI _ | .jpV0 _ | .drw _ _ _
  | .skp _ | .sknp _ | .ldVxKey _ | .ldDtVx _ | .ldStVx _ | .addI _ | .ldFont _ | .ldBcd _ | .storeRegs _ => False

/-- The number of bytes an instruction stores from I on (20_memory.md R40). -/
def Instr.storedBytes : Instr → Nat
  | .ldBcd _ => 3
  | .storeRegs x => x.val + 1
  | .cls | .ret | .jp _ | .call _ | .seImm _ _ | .sneImm _ _ | .seReg _ _ | .ldImm _ _ | .addImm _ _ | .ldReg _ _
  | .orReg _ _ | .andReg _ _ | .xorReg _ _ | .addReg _ _ | .subReg _ _ | .shr _ | .subnReg _ _ | .shl _ | .sneReg _ _
  | .ldI _ | .jpV0 _ | .rnd _ _ | .drw _ _ _ | .skp _ | .sknp _ | .ldVxDt _ | .ldVxKey _ | .ldDtVx _ | .ldStVx _
  | .addI _ | .ldFont _ | .loadRegs _ => 0

/-- The special registers an instruction that does not fault may write (10_state.md R18, R31). `LD Vx,K` alone writes the mode
(R25). -/
def Instr.specials : Instr → List Machine.Part
  | .ret | .call _ => [.pc, .sp]
  | .jp _ | .jpV0 _ | .seImm _ _ | .sneImm _ _ | .seReg _ _ | .sneReg _ _ | .skp _ | .sknp _ => [.pc]
  | .ldI _ | .addI _ | .ldFont _ => [.index]
  | .ldVxKey _ => [.mode]
  | .ldDtVx _ => [.dt]
  | .ldStVx _ => [.st]
  | .cls | .ldImm _ _ | .addImm _ _ | .ldReg _ _ | .orReg _ _ | .andReg _ _ | .xorReg _ _ | .addReg _ _ | .subReg _ _
  | .shr _ | .subnReg _ _ | .shl _ | .rnd _ _ | .drw _ _ _ | .ldVxDt _ | .ldBcd _ | .storeRegs _ | .loadRegs _ => []

/-- The instruction writes stack slot k: `CALL` the slot SP counts, and nothing else any (10_state.md R20, 41_control_flow.md R103). -/
def Instr.pushesTo (i : Instr) (s : Machine.State) (k : Fin 16) : Prop :=
  match i with
  | .call _ => k.val = s.sp.val
  | .cls | .ret | .jp _ | .seImm _ _ | .sneImm _ _ | .seReg _ _ | .ldImm _ _ | .addImm _ _ | .ldReg _ _ | .orReg _ _
  | .andReg _ _ | .xorReg _ _ | .addReg _ _ | .subReg _ _ | .shr _ | .subnReg _ _ | .shl _ | .sneReg _ _ | .ldI _ | .jpV0 _
  | .rnd _ _ | .drw _ _ _ | .skp _ | .sknp _ | .ldVxDt _ | .ldVxKey _ | .ldDtVx _ | .ldStVx _ | .addI _ | .ldFont _
  | .ldBcd _ | .storeRegs _ | .loadRegs _ => False

/-- The instruction writes the pixel at row r, column c: `CLS` every one, `DRW` those its sprite covers (44_display.md R161, R162). -/
def Instr.paints (i : Instr) (s : Machine.State) (r : Fin 32) (c : Fin 64) : Prop :=
  match i with
  | .cls => True
  | .drw x y n => Machine.SpriteCovers s x y n r c
  | .ret | .jp _ | .call _ | .seImm _ _ | .sneImm _ _ | .seReg _ _ | .ldImm _ _ | .addImm _ _ | .ldReg _ _ | .orReg _ _
  | .andReg _ _ | .xorReg _ _ | .addReg _ _ | .subReg _ _ | .shr _ | .subnReg _ _ | .shl _ | .sneReg _ _ | .ldI _ | .jpV0 _
  | .rnd _ _ | .skp _ | .sknp _ | .ldVxDt _ | .ldVxKey _ | .ldDtVx _ | .ldStVx _ | .addI _ | .ldFont _ | .ldBcd _
  | .storeRegs _ | .loadRegs _ => False

/-- The execute-phase fault of an instruction in state `s`, by the condition column of 60_exceptions.md R181. -/
def Instr.faultIn (i : Instr) (s : Machine.State) : Option Machine.Cause :=
  match i with
  | .call _ => if s.sp.val = 16 then some .stackOverflow else none
  | .ret => if s.sp.val = 0 then some .stackUnderflow else none
  | .ldFont x => if 15 < (s.getV x).toNat then some .invalidDigit else none
  | .drw _ _ n => if 0 < n ∧ 0xFFF < s.i.toNat + n - 1 then some .invalidAccess else none
  | .ldBcd _ => if 0xFFF < s.i.toNat + 2 then some .invalidAccess else none
  | .storeRegs x | .loadRegs x => if 0xFFF < s.i.toNat + x.val then some .invalidAccess else none
  | .skp x | .sknp x => if 15 < (s.getV x).toNat then some .invalidKey else none
  | .cls | .jp _ | .seImm _ _ | .sneImm _ _ | .seReg _ _ | .ldImm _ _ | .addImm _ _ | .ldReg _ _ | .orReg _ _
  | .andReg _ _ | .xorReg _ _ | .addReg _ _ | .subReg _ _ | .shr _ | .subnReg _ _ | .shl _ | .sneReg _ _ | .ldI _
  | .jpV0 _ | .rnd _ _ | .ldVxDt _ | .ldVxKey _ | .ldDtVx _ | .ldStVx _ | .addI _ => none

/-- What the instruction's own effect in state `s` may write, part by part. -/
def Instr.writes (i : Instr) (s : Machine.State) : Machine.Part → Prop
  | .byte a => s.i.toNat ≤ a ∧ a < s.i.toNat + i.storedBytes
  | .reg j => i.destination j ∨ (i.flagWriter = true ∧ j = Machine.vf)
  | .slot k => i.pushesTo s k
  | .pixel r c => i.paints s r c
  | .index => .index ∈ i.specials
  | .pc => .pc ∈ i.specials
  | .sp => .sp ∈ i.specials
  | .dt => .dt ∈ i.specials
  | .st => .st ∈ i.specials
  | .mode => .mode ∈ i.specials
  | .opcode | .keyPort | .rndPort | .answer | .events | .draws => False

/-- Everything an instruction may write when it executes in state `s`: the mode alone where it faults (60_exceptions.md R186), its own
effect where it does not. -/
def Instr.mayWrite (i : Instr) (s : Machine.State) (p : Machine.Part) : Prop :=
  match i.faultIn s with
  | some _ => p = .mode
  | none => i.writes s p

end Sys2Proof

namespace Sys2Proof.Machine

/-! ### Terms of single claims -/

/-- Every element at the value 10_state.md R29 gives for reset. -/
structure AtReset (t : State) : Prop where
  registers   : ∀ j, t.getV j = 0
  font        : ∀ k < 80, t.mem.read (0x050 + k) = hardware.font.getD k 0
  otherMemory : ∀ a, (a < 0x050 ∨ 0x09F < a) → t.mem.read a = 0
  counter     : t.pc = 0x200#16
  index       : t.i = 0
  pointer     : t.sp.val = 0
  stack       : ∀ k, t.stack.get k = 0
  delayTimer  : t.dt = 0
  soundTimer  : t.st = 0
  pixels      : ∀ r c, Framebuffer.pixel t.fb r c = false
  opcode      : t.opcode = 0
  mode        : t.mode = .running

/-- The execute phases of a row of `CALL` instructions, one after the other. -/
def callChain : List (BitVec 12) → State → Host.Outcome State Fault Refusal
  | [], s => .next s
  | nnn :: rest, s =>
    match exec (.call nnn) s with
    | .next t => callChain rest t
    | .fault r => .fault r
    | .refused r => .refused r

end Sys2Proof.Machine
end

