-- ==== Sys2Proof/Certificates/Slice0/Obligations.lean ====
section
/-! DEFINITION. The statements for the provers. Each docstring names the rule of spec/ it formalises. An instruction's meaning runs
after fetch and advance, so `s.pc` in a statement about `exec` is the post-advance value, the instruction's address plus 2
(40_cycle.md R83, 41_control_flow.md R100). -/

open Sys2Proof Sys2Proof.Machine

/-! ### Encoding -/

/-- Words written out from 30_encoding.md R66, and words R67 calls illegal (95_test_vectors.md V-DEC, S7). -/
def Obligations.SampleWordsDecodeAsTheTableSays : Prop :=
  decodeWord 0x00E0#16 = some .cls ∧ decodeWord 0x600A#16 = some (.ldImm 0 0x0A#8) ∧
  decodeWord 0x5010#16 = some (.seReg 0 1) ∧ decodeWord 0x8AB6#16 = some (.shr 10) ∧
  decodeWord 0xD125#16 = some (.drw 1 2 5) ∧ decodeWord 0xF265#16 = some (.loadRegs 2) ∧
  decodeWord 0xE39E#16 = some (.skp 3) ∧ decodeWord 0xB210#16 = some (.jpV0 0x210#12) ∧
  decodeWord 0x0000#16 = none ∧ decodeWord 0x5121#16 = none ∧ decodeWord 0x8128#16 = none ∧
  decodeWord 0xE19F#16 = none ∧ decodeWord 0xF1FF#16 = none

/-- Decode and encode agree, on words and on the bytes memory holds. -/
def Obligations.DecodeOfEncodeIsIdentity : Prop :=
  ∀ (i : Instr) (rest : List Byte), i.wf = true →
    decodeWord (encode i) = some i ∧ decode (bytesOfWord (encode i) ++ rest) = .ok (i, rest)

/-- 30_encoding.md R64, whose strict reading is the spec's decision D2: a word is an instruction exactly when it matches a row, and it
is that row's instruction; any other word makes the step raise `UnknownOpcode`. -/
def Obligations.WordIsAnInstructionExactlyWhenItMatchesARow : Prop :=
  (∀ w i, decodeWord w = some i → ∃ row, opcodeTable[i.row - 1]? = some row ∧ w &&& row.2 = row.1) ∧
  (∀ w k row, opcodeTable[k]? = some row → w &&& row.2 = row.1 → ∃ i, decodeWord w = some i ∧ i.row = k + 1) ∧
  (∀ s keys rnd w, s.RunsStep keys rnd → fetch s = some w → (∀ row ∈ opcodeTable, w &&& row.2 ≠ row.1) →
    ∃ t, step s = .next t ∧ t.mode = .halted .unknownOpcode)

/-- 30_encoding.md section 3 (R67): the illegal words are exactly the listed ones, and each raises `UnknownOpcode`. -/
def Obligations.IllegalWordsAreExactlyTheListedOnes : Prop :=
  (∀ w : Word, decodeWord w = none ↔
    (w.toNat / 4096 = 0x0 ∧ w ≠ 0x00E0#16 ∧ w ≠ 0x00EE#16) ∨
    (w.toNat / 4096 = 0x5 ∧ w.toNat % 16 ≠ 0) ∨
    (w.toNat / 4096 = 0x8 ∧ w.toNat % 16 ∈ [0x8, 0x9, 0xA, 0xB, 0xC, 0xD, 0xF]) ∨
    (w.toNat / 4096 = 0x9 ∧ w.toNat % 16 ≠ 0) ∨
    (w.toNat / 4096 = 0xE ∧ w.toNat % 256 ∉ [0x9E, 0xA1]) ∨
    (w.toNat / 4096 = 0xF ∧ w.toNat % 256 ∉ [0x07, 0x0A, 0x15, 0x18, 0x1E, 0x29, 0x33, 0x55, 0x65])) ∧
  (∀ s keys rnd w, s.RunsStep keys rnd → fetch s = some w → decodeWord w = none →
    ∃ t, step s = .next t ∧ t.mode = .halted .unknownOpcode)

/-- 30_encoding.md R70, the spec's inference from R66: no word matches two rows. -/
def Obligations.RowsOfTheOpcodeTableAreDisjoint : Prop :=
  opcodeTable.length = 34 ∧
  ∀ (w : Word) (j k : Nat) (rj rk : Word × Word), opcodeTable[j]? = some rj → opcodeTable[k]? = some rk →
    w &&& rj.2 = rj.1 → w &&& rk.2 = rk.1 → j = k

/-- 30_encoding.md R69: every Y of 8XY6 and 8XYE is the same instruction; every other instruction has one word. -/
def Obligations.OnlyShiftsHaveADontCareField : Prop :=
  (∀ x y : RegIx, decodeWord (0x8#4 ++ nibble x ++ nibble y ++ 0x6#4) = some (.shr x) ∧
    decodeWord (0x8#4 ++ nibble x ++ nibble y ++ 0xE#4) = some (.shl x)) ∧
  (∀ w i, decodeWord w = some i → (∀ x, i ≠ .shr x) → (∀ x, i ≠ .shl x) → encode i = w)

/-- What the decoder gives is an instruction of the hardware (30_encoding.md section 2: N is a 4-bit count). -/
def Obligations.DecodedInstructionIsWellFormed : Prop :=
  ∀ bytes i rest, decode bytes = .ok (i, rest) → i.wf = true ∧ bytes.length = rest.length + 2

/-! ### The step and the events -/

/-- 40_cycle.md section 2: when the two bytes at PC decode to an instruction, a step in mode `Running` is its meaning, run on the state
with the word in `opcode` and PC advanced by 2. -/
def Obligations.StepRunsTheDecodedInstruction : Prop :=
  ∀ s keys rnd i, s.RunsStep keys rnd → s.pc.toNat < 0xFFF → i.wf = true →
    decode [s.mem.read s.pc.toNat, s.mem.read (s.pc.toNat + 1)] = .ok (i, []) →
    step s = exec i { s.atStep keys rnd with
      opcode := s.mem.read s.pc.toNat ++ s.mem.read (s.pc.toNat + 1), pc := s.pc + 2 }

/-- 20_memory.md R41, R44, R45 and 60_exceptions.md R182: the fetch is big-endian at every address below 0xFFF, odd or even; from 0xFFF
on it faults, and then neither PC nor `opcode` nor anything else is written. -/
def Obligations.FetchIsBigEndianAndFaultsOnlyBeyondMemory : Prop :=
  (∀ s, s.pc.toNat < 0xFFF → ∃ w, fetch s = some w ∧
    w.toNat = 256 * (s.mem.read s.pc.toNat).toNat + (s.mem.read (s.pc.toNat + 1)).toNat) ∧
  (∀ s keys rnd, s.RunsStep keys rnd → 0xFFF ≤ s.pc.toNat →
    step s = .next { s.atStep keys rnd with mode := .halted .invalidFetch })

/-- 60_exceptions.md R183: `opcode` holds the illegal word and PC its address plus 2. -/
def Obligations.UnknownOpcodeHaltsPastTheWord : Prop :=
  ∀ s keys rnd w, s.RunsStep keys rnd → fetch s = some w → decodeWord w = none →
    step s = .next { s.atStep keys rnd with opcode := w, pc := s.pc + 2, mode := .halted .unknownOpcode }

/-- 40_cycle.md R87; lowest index, level sensitivity and no fetch in this step are the spec's decision D11. -/
def Obligations.KeyWaitEndsWithTheLowestPressedKey : Prop :=
  (∀ s x rnd, s.mode = .awaitingKey x → s.nextEvent = .step 0 rnd → step s = .next (s.atStep 0 rnd)) ∧
  (∀ s x keys rnd k, s.mode = .awaitingKey x → s.nextEvent = .step keys rnd →
    k < 16 → keys.getLsbD k = true → (∀ j < k, keys.getLsbD j = false) →
    ∃ t, step s = .next t ∧ (t.getV x).toNat = k ∧ t.mode = .running ∧
      ChangesOnly (fun p => p = .reg x ∨ p = .mode) (s.atStep keys rnd) t)

/-- 40_cycle.md R88, the spec's decision D12. -/
def Obligations.HaltedStepChangesNothing : Prop :=
  ∀ s c keys rnd, s.mode = .halted c → s.nextEvent = .step keys rnd → step s = .next (s.atStep keys rnd)

/-- 60_exceptions.md R196: each timer counts down by 1 and stops at 0, and nothing else changes. That it does so in every mode is R197,
the spec's decision D16. -/
def Obligations.TickCountsBothTimersDownInEveryMode : Prop :=
  ∀ s, s.nextEvent = .tick → ∃ t, step s = .next t ∧
    t.dt.toNat = s.dt.toNat - 1 ∧ t.st.toNat = s.st.toNat - 1 ∧
    ChangesOnly (fun p => p = .dt ∨ p = .st) s.takeEvent t

/-- 60_exceptions.md R199; that a load acts in every mode is the spec's decision D17. The answer stays on its port (log entry 3). -/
def Obligations.LoadCopiesTheImageOrRefusesIt : Prop :=
  ∀ s bytes, s.nextEvent = .load bytes →
    (bytes.length ≤ 3584 → ∃ t, step s = .next t ∧ t.loadAnswer = some .accepted ∧
      (∀ j (h : j < bytes.length), t.mem.read (0x200 + j) = bytes[j]) ∧
      ChangesOnly (fun p => p = .answer ∨ ∃ j < bytes.length, p = .byte (0x200 + j)) s.takeEvent t) ∧
    (3584 < bytes.length → ∃ t, step s = .next t ∧ t.loadAnswer = some .imageTooLarge ∧
      ChangesOnly (fun p => p = .answer) s.takeEvent t)

/-- 10_state.md R29, in the machine's reset state and after a reset event in any state. The zeros of I, SP, the stack, the timers, the
framebuffer and `opcode` are the spec's decision D13; that the host's own events go on is log entry 1. -/
def Obligations.ResetSetsEveryElement : Prop :=
  AtReset State.reset ∧
  ∀ s, s.nextEvent = .reset → ∃ t, step s = .next t ∧ AtReset t ∧
    t.events = s.takeEvent.events ∧ t.draws = s.takeEvent.draws

/-- 10_state.md R16: the glyph bytes, digit by digit and row by row, from address 0x050 on. The bytes are the spec's decision D3. -/
def Obligations.FontTableAtReset : Prop :=
  (List.range 16).map (fun d => (List.range 5).map (fun j => (State.reset.mem.read (0x050 + 5 * d + j)).toNat)) =
    [[0xF0, 0x90, 0x90, 0x90, 0xF0], [0x20, 0x60, 0x20, 0x20, 0x70], [0xF0, 0x10, 0xF0, 0x80, 0xF0],
     [0xF0, 0x10, 0xF0, 0x10, 0xF0], [0x90, 0x90, 0xF0, 0x10, 0x10], [0xF0, 0x80, 0xF0, 0x10, 0xF0],
     [0xF0, 0x80, 0xF0, 0x90, 0xF0], [0xF0, 0x10, 0x20, 0x40, 0x40], [0xF0, 0x90, 0xF0, 0x90, 0xF0],
     [0xF0, 0x90, 0xF0, 0x10, 0xF0], [0xF0, 0x90, 0xF0, 0x90, 0x90], [0xE0, 0x90, 0xE0, 0x90, 0xE0],
     [0xF0, 0x80, 0x80, 0x80, 0xF0], [0xE0, 0x90, 0x90, 0x90, 0xE0], [0xF0, 0x80, 0xF0, 0x80, 0xF0],
     [0xF0, 0x80, 0xF0, 0x80, 0x80]]

/-- 70_reset_and_hazards.md R214, the spec's inference from R67 and R183: a step as the first event after reset, and any step on
zeroed memory. -/
def Obligations.ZeroedMemoryHaltsTheEngine : Prop :=
  (∀ keys rnd es, ∃ t, step { State.reset with events := .step keys rnd :: es } = .next t ∧
    t.mode = .halted .unknownOpcode ∧ t.pc = 0x202#16 ∧ t.opcode = 0x0000#16) ∧
  (∀ s keys rnd, s.RunsStep keys rnd → s.pc.toNat < 0xFFF →
    s.mem.read s.pc.toNat = 0 → s.mem.read (s.pc.toNat + 1) = 0 →
    ∃ t, step s = .next t ∧ t.mode = .halted .unknownOpcode ∧ t.pc = s.pc + 2 ∧ t.opcode = 0x0000#16)

/-! ### The whole machine -/

/-- 10_state.md section 10 (R30 (a) to (c)) and the canonical form of memory: every event keeps them. -/
def Obligations.EveryStepKeepsTheInvariant : Prop :=
  ∀ s t, s.Inv → step s = .next t → t.Inv

/-- The reset state meets the invariant (10_state.md sections 9 and 10). -/
def Obligations.ResetSatisfiesTheInvariant : Prop := State.reset.Inv

/-- 60_exceptions.md section 1 (R180, R186): the spec describes the state every fault leaves, so no step stops (log entry 4). -/
def Obligations.EveryStepAnswersANextState : Prop :=
  ∀ s, ∃ t, step s = .next t

/-- 60_exceptions.md R186 (the spec's decision D12) and R187: after a fault nothing differs from the start of the step but the mode
and, past the fetch, `opcode` and PC. -/
def Obligations.FaultsArePrecise : Prop :=
  ∀ s keys rnd c t, s.RunsStep keys rnd → step s = .next t → t.mode = .halted c →
    (c = .invalidFetch ∧ t = { s.atStep keys rnd with mode := .halted c }) ∨
    (c ≠ .invalidFetch ∧ ∃ w, fetch s = some w ∧
      t = { s.atStep keys rnd with opcode := w, pc := s.pc + 2, mode := .halted c })

/-- 60_exceptions.md R181: each cause, where it is raised, by what, on what condition, and its code. The codes and the names of
`InvalidAccess` and `InvalidKey` are the spec's (decision D19). -/
def Obligations.FaultCausesAreExactlyTheTable : Prop :=
  (∀ i s c, s.mode = .running → ∃ t, exec i s = .next t ∧ (t.mode = .halted c ↔ i.faultIn s = some c)) ∧
  (∀ s keys rnd, s.RunsStep keys rnd → ∃ t, step s = .next t ∧
    (t.mode = .halted .invalidFetch ↔ 0xFFF ≤ s.pc.toNat) ∧
    (t.mode = .halted .unknownOpcode ↔ ∃ w, fetch s = some w ∧ decodeWord w = none)) ∧
  (∀ s bytes, s.nextEvent = .load bytes → ∃ t, step s = .next t ∧ t.mode = s.mode ∧
    (t.loadAnswer = some .imageTooLarge ↔ 3584 < bytes.length)) ∧
  [Cause.invalidFetch, .unknownOpcode, .stackOverflow, .stackUnderflow, .invalidDigit, .invalidAccess, .invalidKey].map
    Cause.code = [1, 2, 3, 4, 5, 6, 7] ∧
  LoadAnswer.imageTooLarge.code = 8 ∧ Mode.running.code = 0

/-- 60_exceptions.md R189: only a reset leaves `Halted`, the recorded cause never changes, and a key wait raises nothing. -/
def Obligations.OnlyResetLeavesHalted : Prop :=
  (∀ s c, s.mode = .halted c → ∃ t, step s = .next t ∧
    (s.nextEvent ≠ .reset → t.mode = .halted c) ∧ (s.nextEvent = .reset → t.mode = .running) ∧
    (∀ keys rnd, s.nextEvent = .step keys rnd → t = s.atStep keys rnd)) ∧
  (∀ s x, s.mode = .awaitingKey x → ∃ t, step s = .next t ∧ ∀ c, t.mode ≠ .halted c)

/-- 60_exceptions.md R203: the wait is entered by `LD Vx,K` alone, keeps all state, lets the timers count, and is left by a step that
sees a pressed key or by a reset. -/
def Obligations.OnlyAKeyOrResetEndsTheKeyWait : Prop :=
  (∀ i s x, s.mode = .running → ∃ t, exec i s = .next t ∧ (t.mode = .awaitingKey x ↔ i = .ldVxKey x)) ∧
  (∀ s x, s.mode = .awaitingKey x → ∃ t, step s = .next t ∧
    (∀ rnd, s.nextEvent = .step 0 rnd → t = s.atStep 0 rnd) ∧
    (s.nextEvent = .tick → t.dt.toNat = s.dt.toNat - 1 ∧ t.st.toNat = s.st.toNat - 1 ∧
      ChangesOnly (fun p => p = .dt ∨ p = .st) s.takeEvent t) ∧
    (∀ bytes, s.nextEvent = .load bytes → t.mode = .awaitingKey x) ∧
    (∀ keys rnd, s.nextEvent = .step keys rnd → keys ≠ 0 → t.mode = .running) ∧
    (s.nextEvent = .reset → t.mode = .running))

/-- 10_state.md section 10 (R31, the spec's inference): which event may change which element; for a running step, what the rule of the
decoded instruction writes (41 to 45). -/
def Obligations.EventsChangeOnlyTheirElements : Prop :=
  ∀ s, ∃ t, step s = .next t ∧
    (∀ bytes, s.nextEvent = .load bytes →
      ChangesOnly (fun p => p = .answer ∨ ∃ a, 0x200 ≤ a ∧ p = .byte a) s.takeEvent t) ∧
    (s.nextEvent = .tick →
      ChangesOnly (fun p => (p = .dt ∧ s.dt ≠ 0) ∨ (p = .st ∧ s.st ≠ 0)) s.takeEvent t) ∧
    (∀ keys rnd, s.nextEvent = .step keys rnd →
      (∀ c, s.mode = .halted c → ChangesOnly (fun _ => False) (s.atStep keys rnd) t) ∧
      (∀ x, s.mode = .awaitingKey x →
        ChangesOnly (fun p => keys ≠ 0 ∧ (p = .reg x ∨ p = .mode)) (s.atStep keys rnd) t) ∧
      (s.mode = .running →
        ChangesOnly (fun p => p = .mode ∨ ∃ w, fetch s = some w ∧ (p = .opcode ∨ p = .pc ∨
          ∃ i, decodeWord w = some i ∧ i.mayWrite s p)) (s.atStep keys rnd) t))

/-- The frame of every instruction: the execute phase changes nothing but what the instruction's rule names (10_state.md sections 3,
5, 6 and 10; 41 to 45), part by part: registers, the bytes stored from I on, the slot `CALL` pushes to, the pixels a sprite covers,
special registers; where it faults, the mode alone. -/
def Obligations.InstructionsChangeOnlyWhatTheirRulesName : Prop :=
  ∀ i s, ∃ t, exec i s = .next t ∧ ChangesOnly (i.mayWrite s) s t

/-- 10_state.md section 3 (R13): VF is written by the six instructions or as a named destination only, and the six leave 0 or 1 in it
unless it is their destination. -/
def Obligations.VfIsWrittenBySixInstructionsOrAsDestination : Prop :=
  ∀ i s, i.faultIn s = none → ∃ t, exec i s = .next t ∧
    (t.getV vf ≠ s.getV vf → i.flagWriter = true ∨ i.destination vf) ∧
    (i.flagWriter = true → ¬i.destination vf → t.getV vf = 0 ∨ t.getV vf = 1)

/-- 10_state.md section 8 (R27, R28): the key vector reaches a running program through `SKP` and `SKNP` only, the random byte through
`RND` only. -/
def Obligations.InputsAreReadOnlyByTheirInstructions : Prop :=
  ∀ i s keys rnd, ∃ t u, exec i s = .next t ∧ exec i (s.withInputs keys rnd) = .next u ∧
    ((∀ x nn, i ≠ .rnd x nn) → keys = s.keys → u = t.withInputs keys rnd) ∧
    ((∀ x, i ≠ .skp x) → (∀ x, i ≠ .sknp x) → rnd = s.rnd → u = t.withInputs keys rnd)

/-- 41_control_flow.md R110. -/
def Obligations.CallsNestSixteenDeepAndReturn : Prop :=
  (∀ nnn s, s.sp.val < 16 → ∃ t, exec (.call nnn) s = .next t ∧
    ∀ u : State, u.stack = t.stack → u.sp = t.sp → ∃ r, exec .ret u = .next r ∧ r.pc = s.pc ∧ r.sp = s.sp) ∧
  (∀ targets s, s.mode = .running → s.sp.val = 0 → targets.length = 16 →
    ∃ t, callChain targets s = .next t ∧ t.mode = .running ∧ t.sp.val = 16 ∧
      ∀ nnn, exec (.call nnn) t = .next { t with mode := .halted .stackOverflow }) ∧
  (∀ s, s.sp.val = 0 → exec .ret s = .next { s with mode := .halted .stackUnderflow })

/-! ### Registers and arithmetic -/

/-- 42_alu.md R120, R121. -/
def Obligations.ImmediateLoadAndAdd : Prop :=
  ∀ (x : RegIx) (nn : Byte) (s : State),
    decodeWord (0x6#4 ++ nibble x ++ nn) = some (.ldImm x nn) ∧
    decodeWord (0x7#4 ++ nibble x ++ nn) = some (.addImm x nn) ∧
    (∃ t, exec (.ldImm x nn) s = .next t ∧ t.getV x = nn ∧ ChangesOnly (fun p => p = .reg x) s t) ∧
    (∃ t, exec (.addImm x nn) s = .next t ∧ (t.getV x).toNat = ((s.getV x).toNat + nn.toNat) % 256 ∧
      ChangesOnly (fun p => p = .reg x) s t)

/-- 42_alu.md R122 to R125: VF is not written unless it is the destination. -/
def Obligations.CopyAndLogicWriteOnlyTheirDestination : Prop :=
  ∀ (x y : RegIx) (s : State),
    decodeWord (0x8#4 ++ nibble x ++ nibble y ++ 0x0#4) = some (.ldReg x y) ∧
    decodeWord (0x8#4 ++ nibble x ++ nibble y ++ 0x1#4) = some (.orReg x y) ∧
    decodeWord (0x8#4 ++ nibble x ++ nibble y ++ 0x2#4) = some (.andReg x y) ∧
    decodeWord (0x8#4 ++ nibble x ++ nibble y ++ 0x3#4) = some (.xorReg x y) ∧
    (∃ t, exec (.ldReg x y) s = .next t ∧ t.getV x = s.getV y ∧ ChangesOnly (fun p => p = .reg x) s t) ∧
    (∃ t, exec (.orReg x y) s = .next t ∧ t.getV x = s.getV x ||| s.getV y ∧ ChangesOnly (fun p => p = .reg x) s t) ∧
    (∃ t, exec (.andReg x y) s = .next t ∧ t.getV x = s.getV x &&& s.getV y ∧ ChangesOnly (fun p => p = .reg x) s t) ∧
    (∃ t, exec (.xorReg x y) s = .next t ∧ t.getV x = s.getV x ^^^ s.getV y ∧ ChangesOnly (fun p => p = .reg x) s t)

/-- 42_alu.md R126: with X = F the sum wins over the carry. -/
def Obligations.AddSetsTheCarry : Prop :=
  ∀ (x y : RegIx) (s : State),
    decodeWord (0x8#4 ++ nibble x ++ nibble y ++ 0x4#4) = some (.addReg x y) ∧
    ∃ t, exec (.addReg x y) s = .next t ∧
      (t.getV x).toNat = ((s.getV x).toNat + (s.getV y).toNat) % 256 ∧
      (x ≠ vf → (t.getV vf).toNat = if 255 < (s.getV x).toNat + (s.getV y).toNat then 1 else 0) ∧
      ChangesOnly (fun p => p = .reg x ∨ p = .reg vf) s t

/-- 42_alu.md R127, R129: VF is the not-borrow, 1 in the equal case too; with X = F the difference wins. -/
def Obligations.SubtractionsSetNotBorrow : Prop :=
  ∀ (x y : RegIx) (s : State),
    decodeWord (0x8#4 ++ nibble x ++ nibble y ++ 0x5#4) = some (.subReg x y) ∧
    decodeWord (0x8#4 ++ nibble x ++ nibble y ++ 0x7#4) = some (.subnReg x y) ∧
    (∃ t, exec (.subReg x y) s = .next t ∧
      (t.getV x).toNat = (256 + (s.getV x).toNat - (s.getV y).toNat) % 256 ∧
      (x ≠ vf → (t.getV vf).toNat = if (s.getV y).toNat ≤ (s.getV x).toNat then 1 else 0) ∧
      ChangesOnly (fun p => p = .reg x ∨ p = .reg vf) s t) ∧
    (∃ t, exec (.subnReg x y) s = .next t ∧
      (t.getV x).toNat = (256 + (s.getV y).toNat - (s.getV x).toNat) % 256 ∧
      (x ≠ vf → (t.getV vf).toNat = if (s.getV x).toNat ≤ (s.getV y).toNat then 1 else 0) ∧
      ChangesOnly (fun p => p = .reg x ∨ p = .reg vf) s t)

/-- 42_alu.md R128, R130: whatever Y is, VF is the bit shifted out; with X = F the result wins. -/
def Obligations.ShiftsSetTheBitShiftedOut : Prop :=
  ∀ (x y : RegIx) (s : State),
    decodeWord (0x8#4 ++ nibble x ++ nibble y ++ 0x6#4) = some (.shr x) ∧
    decodeWord (0x8#4 ++ nibble x ++ nibble y ++ 0xE#4) = some (.shl x) ∧
    (∃ t, exec (.shr x) s = .next t ∧ (t.getV x).toNat = (s.getV x).toNat / 2 ∧
      (x ≠ vf → (t.getV vf).toNat = (s.getV x).toNat % 2) ∧
      ChangesOnly (fun p => p = .reg x ∨ p = .reg vf) s t) ∧
    (∃ t, exec (.shl x) s = .next t ∧ (t.getV x).toNat = 2 * (s.getV x).toNat % 256 ∧
      (x ≠ vf → (t.getV vf).toNat = (s.getV x).toNat / 128) ∧
      ChangesOnly (fun p => p = .reg x ∨ p = .reg vf) s t)

/-- 42_alu.md R133. -/
def Obligations.ShiftRightThenLeftClearsTheLowBit : Prop :=
  ∀ (x : RegIx) (s : State), x ≠ vf →
    (∃ t u, exec (.shr x) s = .next t ∧ (t.getV vf).toNat = (s.getV x).toNat % 2 ∧
      exec (.shl x) t = .next u ∧ (u.getV x).toNat = (s.getV x).toNat - (s.getV x).toNat % 2 ∧ u.getV vf = 0) ∧
    (∃ u, exec (.shl x) s = .next u ∧ (u.getV vf).toNat = (s.getV x).toNat / 128)

/-- 42_alu.md R131, for every value of the random input. -/
def Obligations.RandomByteUnderMask : Prop :=
  ∀ (x : RegIx) (nn : Byte) (s : State),
    decodeWord (0xC#4 ++ nibble x ++ nn) = some (.rnd x nn) ∧
    ∃ t, exec (.rnd x nn) s = .next t ∧ t.getV x = s.rnd &&& nn ∧ ChangesOnly (fun p => p = .reg x) s t

/-! ### Control flow -/

/-- 41_control_flow.md R104 to R107. -/
def Obligations.SkipsCompareBytes : Prop :=
  ∀ (x y : RegIx) (nn : Byte) (s : State),
    decodeWord (0x3#4 ++ nibble x ++ nn) = some (.seImm x nn) ∧
    decodeWord (0x4#4 ++ nibble x ++ nn) = some (.sneImm x nn) ∧
    decodeWord (0x5#4 ++ nibble x ++ nibble y ++ 0x0#4) = some (.seReg x y) ∧
    decodeWord (0x9#4 ++ nibble x ++ nibble y ++ 0x0#4) = some (.sneReg x y) ∧
    exec (.seImm x nn) s = .next { s with pc := if s.getV x = nn then s.pc + 2 else s.pc } ∧
    exec (.sneImm x nn) s = .next { s with pc := if s.getV x = nn then s.pc else s.pc + 2 } ∧
    exec (.seReg x y) s = .next { s with pc := if s.getV x = s.getV y then s.pc + 2 else s.pc } ∧
    exec (.sneReg x y) s = .next { s with pc := if s.getV x = s.getV y then s.pc else s.pc + 2 }

/-- 41_control_flow.md R102, R108: the target is not checked and the sum is not reduced modulo 4096. -/
def Obligations.JumpsSetThePc : Prop :=
  ∀ (nnn : BitVec 12) (s : State),
    decodeWord (0x1#4 ++ nnn) = some (.jp nnn) ∧ decodeWord (0xB#4 ++ nnn) = some (.jpV0 nnn) ∧
    (∃ t, exec (.jp nnn) s = .next t ∧ t.pc.toNat = nnn.toNat ∧ ChangesOnly (fun p => p = .pc) s t) ∧
    (∃ t, exec (.jpV0 nnn) s = .next t ∧ t.pc.toNat = nnn.toNat + (s.getV 0).toNat ∧
      ChangesOnly (fun p => p = .pc) s t)

/-- 41_control_flow.md R103. -/
def Obligations.CallPushesThePostAdvancePc : Prop :=
  ∀ (nnn : BitVec 12) (s : State),
    decodeWord (0x2#4 ++ nnn) = some (.call nnn) ∧
    (∀ k : Fin 16, s.sp.val = k.val → ∃ t, exec (.call nnn) s = .next t ∧
      t.stack.get k = s.pc ∧ t.sp.val = k.val + 1 ∧ t.pc.toNat = nnn.toNat ∧
      ChangesOnly (fun p => p = .slot k ∨ p = .sp ∨ p = .pc) s t) ∧
    (s.sp.val = 16 → exec (.call nnn) s = .next { s with mode := .halted .stackOverflow })

/-- 41_control_flow.md R101. -/
def Obligations.RetPopsTheReturnAddress : Prop :=
  ∀ s : State,
    decodeWord 0x00EE#16 = some .ret ∧
    (∀ k : Fin 16, s.sp.val = k.val + 1 → ∃ t, exec .ret s = .next t ∧
      t.pc = s.stack.get k ∧ t.sp.val = k.val ∧ ChangesOnly (fun p => p = .sp ∨ p = .pc) s t) ∧
    (s.sp.val = 0 → exec .ret s = .next { s with mode := .halted .stackUnderflow })

/-! ### Index register and memory -/

/-- 43_index_memory.md R141, R142. -/
def Obligations.IndexLoadAndAdd : Prop :=
  ∀ (nnn : BitVec 12) (x : RegIx) (s : State),
    decodeWord (0xA#4 ++ nnn) = some (.ldI nnn) ∧ decodeWord (0xF#4 ++ nibble x ++ 0x1E#8) = some (.addI x) ∧
    (∃ t, exec (.ldI nnn) s = .next t ∧ t.i.toNat = nnn.toNat ∧ ChangesOnly (fun p => p = .index) s t) ∧
    (∃ t, exec (.addI x) s = .next t ∧ t.i.toNat = (s.i.toNat + (s.getV x).toNat) % 65536 ∧
      ChangesOnly (fun p => p = .index) s t)

/-- 43_index_memory.md R143: the whole byte is tested. -/
def Obligations.FontAddressOfADigit : Prop :=
  ∀ (x : RegIx) (s : State),
    decodeWord (0xF#4 ++ nibble x ++ 0x29#8) = some (.ldFont x) ∧
    ((s.getV x).toNat ≤ 15 → ∃ t, exec (.ldFont x) s = .next t ∧ t.i.toNat = 0x050 + 5 * (s.getV x).toNat ∧
      ChangesOnly (fun p => p = .index) s t) ∧
    (15 < (s.getV x).toNat → exec (.ldFont x) s = .next { s with mode := .halted .invalidDigit })

/-- 43_index_memory.md R144: all three digits or none. -/
def Obligations.BcdStoresThreeDigits : Prop :=
  ∀ (x : RegIx) (s : State),
    decodeWord (0xF#4 ++ nibble x ++ 0x33#8) = some (.ldBcd x) ∧
    (dataBase s + 2 ≤ 0xFFF → ∃ t, exec (.ldBcd x) s = .next t ∧
      (t.mem.read (dataBase s)).toNat = (s.getV x).toNat / 100 ∧
      (t.mem.read (dataBase s + 1)).toNat = (s.getV x).toNat / 10 % 10 ∧
      (t.mem.read (dataBase s + 2)).toNat = (s.getV x).toNat % 10 ∧
      ChangesOnly (fun p => ∃ j < 3, p = .byte (dataBase s + j)) s t) ∧
    (0xFFF < dataBase s + 2 → exec (.ldBcd x) s = .next { s with mode := .halted .invalidAccess })

/-- 43_index_memory.md R145: every byte or none; I is unchanged. -/
def Obligations.RegisterStoreWritesVZeroToVx : Prop :=
  ∀ (x : RegIx) (s : State),
    decodeWord (0xF#4 ++ nibble x ++ 0x55#8) = some (.storeRegs x) ∧
    (dataBase s + x.val ≤ 0xFFF → ∃ t, exec (.storeRegs x) s = .next t ∧
      (∀ j ≤ x, t.mem.read (dataBase s + j.val) = s.getV j) ∧
      ChangesOnly (fun p => ∃ j ≤ x, p = .byte (dataBase s + j.val)) s t) ∧
    (0xFFF < dataBase s + x.val → exec (.storeRegs x) s = .next { s with mode := .halted .invalidAccess })

/-- 43_index_memory.md R146: every register up to VX or none; I is unchanged. -/
def Obligations.RegisterLoadReadsVZeroToVx : Prop :=
  ∀ (x : RegIx) (s : State),
    decodeWord (0xF#4 ++ nibble x ++ 0x65#8) = some (.loadRegs x) ∧
    (dataBase s + x.val ≤ 0xFFF → ∃ t, exec (.loadRegs x) s = .next t ∧
      (∀ j ≤ x, t.getV j = s.mem.read (dataBase s + j.val)) ∧
      ChangesOnly (fun p => ∃ j ≤ x, p = .reg j) s t) ∧
    (0xFFF < dataBase s + x.val → exec (.loadRegs x) s = .next { s with mode := .halted .invalidAccess })

/-- 20_memory.md R46, R47 (the fault is the spec's decision D6): the whole range is checked first; nothing is read or written in
part. -/
def Obligations.MemoryPrimitivesCheckTheWholeRange : Prop :=
  (∀ a n s, 0 < n → 4095 < a + n - 1 → memRead a n s = none) ∧
  (∀ a n s, n = 0 ∨ a + n - 1 ≤ 4095 → ∃ bytes, memRead a n s = some bytes ∧ bytes.length = n ∧
    ∀ j (h : j < bytes.length), bytes[j] = s.mem.read (a + j)) ∧
  (∀ a bytes s, 0 < bytes.length → 4095 < a + bytes.length - 1 → memWrite a bytes s = none) ∧
  (∀ a bytes s, 0 < bytes.length → a + bytes.length - 1 ≤ 4095 → ∃ t, memWrite a bytes s = some t ∧
    (∀ j (h : j < bytes.length), t.mem.read (a + j) = bytes[j]) ∧
    ChangesOnly (fun p => ∃ j < bytes.length, p = .byte (a + j)) s t)

/-- 20_memory.md section 7 (R53): a fetch sees what an earlier store left, from the very next step on. -/
def Obligations.StoreIsSeenByTheNextFetch : Prop :=
  (∀ (x j k : RegIx) (s : State), dataBase s + x.val ≤ 0xFFF → k.val = j.val + 1 → k ≤ x →
    ∃ t, exec (.storeRegs x) s = .next t ∧
      ∀ u : State, u.mem = t.mem → u.pc.toNat = dataBase s + j.val → fetch u = some (s.getV j ++ s.getV k)) ∧
  (∀ (x : RegIx) (s : State), dataBase s + 2 ≤ 0xFFF → ∃ t, exec (.ldBcd x) s = .next t ∧
    ∀ u : State, u.mem = t.mem → u.pc.toNat = dataBase s →
      ∃ w, fetch u = some w ∧ w.toNat = 256 * ((s.getV x).toNat / 100) + (s.getV x).toNat / 10 % 10)

/-- Canonical memories that read alike are the same list, so equal memories are equal data (the model's own form, log entry 6). -/
def Obligations.CanonicalMemoriesThatReadAlikeAreEqual : Prop :=
  ∀ m m' : Memory, m.wf → m'.wf → (∀ a, m.read a = m'.read a) → m = m'

/-! ### Display -/

/-- 44_display.md R161: VF is not written. -/
def Obligations.ClearScreenTurnsEveryPixelOff : Prop :=
  ∀ s : State,
    decodeWord 0x00E0#16 = some .cls ∧
    ∃ t, exec .cls s = .next t ∧ (∀ r c, Framebuffer.pixel t.fb r c = false) ∧
      ChangesOnly (fun p => ∃ r c, p = .pixel r c) s t

/-- 44_display.md R162 to R165: a pixel is toggled when a 1 bit of the sprite covers it, and VF says whether one of those was on
before. That bit 7 is the leftmost pixel is the spec's decision D4, that each pixel wraps is its decision D5. -/
def Obligations.DrawXorsTheSpriteAndReportsCollision : Prop :=
  ∀ (x y : RegIx) (n : Nat) (s : State), n < 16 →
    decodeWord (0xD#4 ++ nibble x ++ nibble y ++ BitVec.ofNat 4 n) = some (.drw x y n) ∧
    ((n = 0 ∨ dataBase s + n - 1 ≤ 0xFFF) → ∃ t, exec (.drw x y n) s = .next t ∧
      (∀ r c, SpriteCovers s x y n r c → Framebuffer.pixel t.fb r c = !Framebuffer.pixel s.fb r c) ∧
      (∀ r c, ¬SpriteCovers s x y n r c → Framebuffer.pixel t.fb r c = Framebuffer.pixel s.fb r c) ∧
      ((∃ r c, SpriteCovers s x y n r c ∧ Framebuffer.pixel s.fb r c = true) → t.getV vf = 1) ∧
      ((∀ r c, SpriteCovers s x y n r c → Framebuffer.pixel s.fb r c = false) → t.getV vf = 0) ∧
      ChangesOnly (fun p => p = .reg vf ∨ ∃ r c, p = .pixel r c) s t) ∧
    (0 < n → 0xFFF < dataBase s + n - 1 → exec (.drw x y n) s = .next { s with mode := .halted .invalidAccess })

/-- 44_display.md R166: (a) the first draw after a clear collides with nothing; (b) a second draw of the same sprite at the same place
restores the framebuffer, and on a screen that was clear it sets VF unless the sprite has no set bit. -/
def Obligations.DrawingTwiceRestoresTheScreen : Prop :=
  (∀ (x y : RegIx) (n : Nat) (s : State), n < 16 → (n = 0 ∨ dataBase s + n - 1 ≤ 0xFFF) →
    ∃ t, exec .cls s = .next t ∧ ∀ u : State, u.fb = t.fb → u.i = t.i →
      ∃ d, exec (.drw x y n) u = .next d ∧ d.getV vf = 0) ∧
  (∀ (x y : RegIx) (n : Nat) (s : State), n < 16 → (n = 0 ∨ dataBase s + n - 1 ≤ 0xFFF) →
    ∃ t, exec (.drw x y n) s = .next t ∧
      ∀ u : State, u.fb = t.fb → u.mem = s.mem → u.i = s.i →
        spriteRow u y = spriteRow s y → spriteColumn u x = spriteColumn s x →
        ∃ d, exec (.drw x y n) u = .next d ∧ d.fb = s.fb ∧
          ((∀ r c, Framebuffer.pixel s.fb r c = false) →
            d.getV vf = if ∃ j < n, s.mem.read (dataBase s + j) ≠ 0 then 1 else 0))

/-- 44_display.md section 2 (R164, the spec's decision D5): the two edge policies differ only for sprites that
reach past column 63 or row 31. -/
def Obligations.EdgePoliciesAgreeInsideTheScreen : Prop :=
  ∀ (r0 c0 : Nat) (sprite : List Byte), c0 ≤ 56 → r0 + sprite.length ≤ 32 →
    spritePixels .wrap r0 c0 sprite = spritePixels .clip r0 c0 sprite

/-! ### Timers and keypad -/

/-- 45_timer_keypad.md R170 to R172. -/
def Obligations.TimerInstructionsMoveOneByte : Prop :=
  ∀ (x : RegIx) (s : State),
    decodeWord (0xF#4 ++ nibble x ++ 0x07#8) = some (.ldVxDt x) ∧
    decodeWord (0xF#4 ++ nibble x ++ 0x15#8) = some (.ldDtVx x) ∧
    decodeWord (0xF#4 ++ nibble x ++ 0x18#8) = some (.ldStVx x) ∧
    (∃ t, exec (.ldVxDt x) s = .next t ∧ t.getV x = s.dt ∧ ChangesOnly (fun p => p = .reg x) s t) ∧
    (∃ t, exec (.ldDtVx x) s = .next t ∧ t.dt = s.getV x ∧ ChangesOnly (fun p => p = .dt) s t) ∧
    (∃ t, exec (.ldStVx x) s = .next t ∧ t.st = s.getV x ∧ ChangesOnly (fun p => p = .st) s t)

/-- 45_timer_keypad.md R173, R174: the key vector is the one presented with this step. The fault is the spec's decision D10. -/
def Obligations.KeySkipsTestTheSampledKey : Prop :=
  ∀ (x : RegIx) (s : State),
    decodeWord (0xE#4 ++ nibble x ++ 0x9E#8) = some (.skp x) ∧
    decodeWord (0xE#4 ++ nibble x ++ 0xA1#8) = some (.sknp x) ∧
    ((s.getV x).toNat ≤ 15 →
      exec (.skp x) s = .next { s with pc := if s.keys.getLsbD (s.getV x).toNat = true then s.pc + 2 else s.pc } ∧
      exec (.sknp x) s = .next { s with pc := if s.keys.getLsbD (s.getV x).toNat = true then s.pc else s.pc + 2 }) ∧
    (15 < (s.getV x).toNat →
      exec (.skp x) s = .next { s with mode := .halted .invalidKey } ∧
      exec (.sknp x) s = .next { s with mode := .halted .invalidKey })

/-- 45_timer_keypad.md section 2 (R175, the spec's decision D11): the executing step enters the wait and does
nothing else; it does not look at the keys. -/
def Obligations.KeyWaitInstructionOnlyEntersTheWait : Prop :=
  ∀ (x : RegIx) (s : State),
    decodeWord (0xF#4 ++ nibble x ++ 0x0A#8) = some (.ldVxKey x) ∧
    exec (.ldVxKey x) s = .next { s with mode := .awaitingKey x }

/-! ### The end of a run -/

/-- 40_cycle.md section 4 (R92): after its first execution a jump to itself leaves every element as it found it. -/
def Obligations.JumpToItselfChangesNothing : Prop :=
  ∀ s keys rnd, s.RunsStep keys rnd → s.pc.toNat < 0xFFF → s.opcode.toNat = 0x1000 + s.pc.toNat →
    fetch s = some s.opcode → step s = .next (s.atStep keys rnd)

/-! ### The host's sequence of events -/

/-- 00_scope.md section 5 (R6) and 60_exceptions.md section 5 (R205), in the model's form (log entry 1): the listed events happen one
after the other and none is lost or added by what happens; after them comes the free event of any kind, a fresh one each time. -/
def Obligations.HostEventsHappenInOrderThenFreely : Prop :=
  ∀ s, ∃ t, step s = .next t ∧
    (∀ e es, s.events = e :: es → applyEvent e { s with events := es } = .next t ∧ t.events = es ∧ t.draws = s.draws) ∧
    (s.events = [] → applyEvent (Config.freeEvent s.draws) { s with draws := s.draws + 1 } = .next t ∧
      t.events = [] ∧ t.draws = s.draws + 1)
end

