-- ==== Sys2Proof/Laws/Decode.lean ====
section
/-! SUPPORT. The fields of the words the encoder builds (30_encoding.md R61). -/

namespace Sys2Proof

theorem toNat_nibble (x : RegIx) : (nibble x).toNat = x.val := by
  simp [nibble]

/-- A word is its four nibbles, as a number. -/
theorem toNat_formXYN (t : BitVec 4) (x y : RegIx) (n : BitVec 4) :
    (formXYN t x y n).toNat = 4096 * t.toNat + 256 * x.val + 16 * y.val + n.toNat := by
  have hx := x.isLt
  have hy := y.isLt
  have hn := n.isLt
  have ht := t.isLt
  simp only [formXYN, BitVec.toNat_append, toNat_nibble]
  rw [← Nat.shiftLeft_add_eq_or_of_lt (by omega), ← Nat.shiftLeft_add_eq_or_of_lt (by omega),
    ← Nat.shiftLeft_add_eq_or_of_lt (by omega)]
  simp only [Nat.shiftLeft_eq]
  omega

theorem toNat_formXNN (t : BitVec 4) (x : RegIx) (nn : Byte) :
    (formXNN t x nn).toNat = 4096 * t.toNat + 256 * x.val + nn.toNat := by
  have hx := x.isLt
  have hn := nn.isLt
  simp only [formXNN, BitVec.toNat_append, toNat_nibble]
  rw [← Nat.shiftLeft_add_eq_or_of_lt (by omega), ← Nat.shiftLeft_add_eq_or_of_lt (by omega)]
  simp only [Nat.shiftLeft_eq]
  omega

theorem toNat_formNNN (t : BitVec 4) (nnn : BitVec 12) : (formNNN t nnn).toNat = 4096 * t.toNat + nnn.toNat := by
  have hn := nnn.isLt
  simp only [formNNN, BitVec.toNat_append]
  rw [← Nat.shiftLeft_add_eq_or_of_lt (by omega)]
  simp only [Nat.shiftLeft_eq]
  omega

/-! ### The fields as numbers -/

theorem fieldTop_eq (op : Word) : fieldTop op = op.toNat / 4096 := by
  have := op.isLt
  simp [fieldTop, Nat.shiftRight_eq_div_pow]; omega

theorem fieldX_val (op : Word) : (fieldX op).val = op.toNat / 256 % 16 := by
  simp [fieldX, Nat.shiftRight_eq_div_pow]

theorem fieldY_val (op : Word) : (fieldY op).val = op.toNat / 16 % 16 := by
  simp [fieldY, Nat.shiftRight_eq_div_pow]

theorem fieldN_eq (op : Word) : fieldN op = op.toNat % 16 := by
  simp [fieldN]

theorem fieldNN_toNat (op : Word) : (fieldNN op).toNat = op.toNat % 256 := by
  simp [fieldNN]

theorem fieldNNN_toNat (op : Word) : (fieldNNN op).toNat = op.toNat % 4096 := by
  simp [fieldNNN]

/-! ### The fields of each form -/

@[simp] theorem fieldTop_formXYN (t : BitVec 4) (x y : RegIx) (n : BitVec 4) : fieldTop (formXYN t x y n) = t.toNat := by
  have := x.isLt; have := y.isLt; have := n.isLt
  rw [fieldTop_eq, toNat_formXYN]; omega

@[simp] theorem fieldX_formXYN (t : BitVec 4) (x y : RegIx) (n : BitVec 4) : fieldX (formXYN t x y n) = x := by
  have := x.isLt; have := y.isLt; have := n.isLt
  apply Fin.ext; rw [fieldX_val, toNat_formXYN]; omega

@[simp] theorem fieldY_formXYN (t : BitVec 4) (x y : RegIx) (n : BitVec 4) : fieldY (formXYN t x y n) = y := by
  have := x.isLt; have := y.isLt; have := n.isLt
  apply Fin.ext; rw [fieldY_val, toNat_formXYN]; omega

@[simp] theorem fieldN_formXYN (t : BitVec 4) (x y : RegIx) (n : BitVec 4) : fieldN (formXYN t x y n) = n.toNat := by
  have := x.isLt; have := y.isLt; have := n.isLt
  rw [fieldN_eq, toNat_formXYN]; omega

@[simp] theorem fieldTop_formXNN (t : BitVec 4) (x : RegIx) (nn : Byte) : fieldTop (formXNN t x nn) = t.toNat := by
  have := x.isLt; have := nn.isLt
  rw [fieldTop_eq, toNat_formXNN]; omega

@[simp] theorem fieldX_formXNN (t : BitVec 4) (x : RegIx) (nn : Byte) : fieldX (formXNN t x nn) = x := by
  have := x.isLt; have := nn.isLt
  apply Fin.ext; rw [fieldX_val, toNat_formXNN]; omega

@[simp] theorem fieldNN_formXNN (t : BitVec 4) (x : RegIx) (nn : Byte) : fieldNN (formXNN t x nn) = nn := by
  have := x.isLt; have := nn.isLt
  apply BitVec.eq_of_toNat_eq; rw [fieldNN_toNat, toNat_formXNN]; omega

@[simp] theorem fieldTop_formNNN (t : BitVec 4) (nnn : BitVec 12) : fieldTop (formNNN t nnn) = t.toNat := by
  have := nnn.isLt
  rw [fieldTop_eq, toNat_formNNN]; omega

@[simp] theorem fieldNNN_formNNN (t : BitVec 4) (nnn : BitVec 12) : fieldNNN (formNNN t nnn) = nnn := by
  have := nnn.isLt
  apply BitVec.eq_of_toNat_eq; rw [fieldNNN_toNat, toNat_formNNN]; omega

/-! ### Every word is built from its fields -/

theorem eq_formXYN (w : Word) : w = formXYN (w.extractLsb' 12 4) (fieldX w) (fieldY w) (w.extractLsb' 0 4) := by
  apply BitVec.eq_of_toNat_eq
  have := w.isLt
  rw [toNat_formXYN, fieldX_val, fieldY_val]
  simp only [BitVec.extractLsb'_toNat, Nat.shiftRight_eq_div_pow]
  omega

theorem eq_formXNN (w : Word) : w = formXNN (w.extractLsb' 12 4) (fieldX w) (fieldNN w) := by
  apply BitVec.eq_of_toNat_eq
  have := w.isLt
  rw [toNat_formXNN, fieldX_val, fieldNN_toNat]
  simp only [BitVec.extractLsb'_toNat, Nat.shiftRight_eq_div_pow]
  omega

theorem eq_formNNN (w : Word) : w = formNNN (w.extractLsb' 12 4) (fieldNNN w) := by
  apply BitVec.eq_of_toNat_eq
  have := w.isLt
  rw [toNat_formNNN, fieldNNN_toNat]
  simp only [BitVec.extractLsb'_toNat, Nat.shiftRight_eq_div_pow]
  omega

/-! ### The masks of the opcode table -/

theorem formNNN_and_F000 (t : BitVec 4) (nnn : BitVec 12) : formNNN t nnn &&& 0xF000#16 = t ++ 0#12 := by
  show (t ++ nnn) &&& (0xF#4 ++ 0#12) = _
  rw [BitVec.and_append, BitVec.and_zero]
  congr 1
  exact BitVec.and_allOnes

theorem formXNN_and_F000 (t : BitVec 4) (x : RegIx) (nn : Byte) : formXNN t x nn &&& 0xF000#16 = t ++ 0#4 ++ 0#8 := by
  show (t ++ nibble x ++ nn) &&& (0xF#4 ++ 0#4 ++ 0#8) = _
  rw [BitVec.and_append, BitVec.and_append, BitVec.and_zero, BitVec.and_zero]
  congr 2
  exact BitVec.and_allOnes

theorem formXNN_and_F0FF (t : BitVec 4) (x : RegIx) (nn : Byte) : formXNN t x nn &&& 0xF0FF#16 = t ++ 0#4 ++ nn := by
  show (t ++ nibble x ++ nn) &&& (0xF#4 ++ 0#4 ++ 0xFF#8) = _
  rw [BitVec.and_append, BitVec.and_append, BitVec.and_zero]
  congr 2
  · exact BitVec.and_allOnes
  · exact BitVec.and_allOnes

theorem formXYN_and_F00F (t : BitVec 4) (x y : RegIx) (n : BitVec 4) :
    formXYN t x y n &&& 0xF00F#16 = t ++ 0#4 ++ 0#4 ++ n := by
  have hm : 0xF00F#16 = BitVec.allOnes 4 ++ 0#4 ++ 0#4 ++ BitVec.allOnes 4 := rfl
  rw [hm]
  unfold formXYN
  rw [BitVec.and_append, BitVec.and_append, BitVec.and_append, BitVec.and_zero, BitVec.and_zero, BitVec.and_allOnes,
    BitVec.and_allOnes]

theorem formXYN_and_F000 (t : BitVec 4) (x y : RegIx) (n : BitVec 4) :
    formXYN t x y n &&& 0xF000#16 = t ++ 0#4 ++ 0#4 ++ 0#4 := by
  have hm : 0xF000#16 = BitVec.allOnes 4 ++ 0#4 ++ 0#4 ++ 0#4 := rfl
  rw [hm]
  unfold formXYN
  rw [BitVec.and_append, BitVec.and_append, BitVec.and_append, BitVec.and_zero, BitVec.and_zero, BitVec.and_zero,
    BitVec.and_allOnes]

/-! ### Bytes -/

/-- The two bytes of a word make the word (20_memory.md R41). -/
theorem wordOfBytes_bytes (w : Word) : wordOfBytes (w.extractLsb' 8 8) (w.extractLsb' 0 8) = w := by
  apply BitVec.eq_of_toNat_eq
  have := w.isLt
  simp only [wordOfBytes, BitVec.toNat_append]
  rw [← Nat.shiftLeft_add_eq_or_of_lt (BitVec.isLt _)]
  simp [Nat.shiftLeft_eq, Nat.shiftRight_eq_div_pow]; omega

/-- The high byte of a fetched word is the byte at the lower address (20_memory.md R41). -/
theorem toNat_wordOfBytes (hi lo : Byte) : (wordOfBytes hi lo).toNat = 256 * hi.toNat + lo.toNat := by
  simp only [wordOfBytes, BitVec.toNat_append]
  rw [← Nat.shiftLeft_add_eq_or_of_lt lo.isLt]
  simp only [Nat.shiftLeft_eq]; omega

end Sys2Proof
end

