-- ==== Sys2Proof/Laws/State.lean ====
section
/-! SUPPORT. One lemma per field per update of State, so that no proof unfolds a record update. -/

namespace Sys2Proof.Machine

/-! ### `State.setV` -/

@[simp] theorem State.setV_mem (s : State) (x : RegIx) (b : Byte) : (s.setV x b).mem = s.mem := rfl
@[simp] theorem State.setV_v (s : State) (x : RegIx) (b : Byte) : (s.setV x b).v = s.v.set x.val b x.isLt := rfl
@[simp] theorem State.setV_i (s : State) (x : RegIx) (b : Byte) : (s.setV x b).i = s.i := rfl
@[simp] theorem State.setV_pc (s : State) (x : RegIx) (b : Byte) : (s.setV x b).pc = s.pc := rfl
@[simp] theorem State.setV_stack (s : State) (x : RegIx) (b : Byte) : (s.setV x b).stack = s.stack := rfl
@[simp] theorem State.setV_sp (s : State) (x : RegIx) (b : Byte) : (s.setV x b).sp = s.sp := rfl
@[simp] theorem State.setV_dt (s : State) (x : RegIx) (b : Byte) : (s.setV x b).dt = s.dt := rfl
@[simp] theorem State.setV_st (s : State) (x : RegIx) (b : Byte) : (s.setV x b).st = s.st := rfl
@[simp] theorem State.setV_fb (s : State) (x : RegIx) (b : Byte) : (s.setV x b).fb = s.fb := rfl
@[simp] theorem State.setV_opcode (s : State) (x : RegIx) (b : Byte) : (s.setV x b).opcode = s.opcode := rfl
@[simp] theorem State.setV_mode (s : State) (x : RegIx) (b : Byte) : (s.setV x b).mode = s.mode := rfl
@[simp] theorem State.setV_keys (s : State) (x : RegIx) (b : Byte) : (s.setV x b).keys = s.keys := rfl
@[simp] theorem State.setV_rnd (s : State) (x : RegIx) (b : Byte) : (s.setV x b).rnd = s.rnd := rfl
@[simp] theorem State.setV_loadAnswer (s : State) (x : RegIx) (b : Byte) : (s.setV x b).loadAnswer = s.loadAnswer := rfl
@[simp] theorem State.setV_events (s : State) (x : RegIx) (b : Byte) : (s.setV x b).events = s.events := rfl
@[simp] theorem State.setV_draws (s : State) (x : RegIx) (b : Byte) : (s.setV x b).draws = s.draws := rfl

/-! ### `State.latch` -/

@[simp] theorem State.latch_mem (s : State) (w : Word) : (s.latch w).mem = s.mem := rfl
@[simp] theorem State.latch_v (s : State) (w : Word) : (s.latch w).v = s.v := rfl
@[simp] theorem State.latch_i (s : State) (w : Word) : (s.latch w).i = s.i := rfl
@[simp] theorem State.latch_pc (s : State) (w : Word) : (s.latch w).pc = s.pc + 2 := rfl
@[simp] theorem State.latch_stack (s : State) (w : Word) : (s.latch w).stack = s.stack := rfl
@[simp] theorem State.latch_sp (s : State) (w : Word) : (s.latch w).sp = s.sp := rfl
@[simp] theorem State.latch_dt (s : State) (w : Word) : (s.latch w).dt = s.dt := rfl
@[simp] theorem State.latch_st (s : State) (w : Word) : (s.latch w).st = s.st := rfl
@[simp] theorem State.latch_fb (s : State) (w : Word) : (s.latch w).fb = s.fb := rfl
@[simp] theorem State.latch_opcode (s : State) (w : Word) : (s.latch w).opcode = w := rfl
@[simp] theorem State.latch_mode (s : State) (w : Word) : (s.latch w).mode = s.mode := rfl
@[simp] theorem State.latch_keys (s : State) (w : Word) : (s.latch w).keys = s.keys := rfl
@[simp] theorem State.latch_rnd (s : State) (w : Word) : (s.latch w).rnd = s.rnd := rfl
@[simp] theorem State.latch_loadAnswer (s : State) (w : Word) : (s.latch w).loadAnswer = s.loadAnswer := rfl
@[simp] theorem State.latch_events (s : State) (w : Word) : (s.latch w).events = s.events := rfl
@[simp] theorem State.latch_draws (s : State) (w : Word) : (s.latch w).draws = s.draws := rfl

/-! ### `State.skipIf` -/

@[simp] theorem State.skipIf_mem (s : State) (c : Bool) : (s.skipIf c).mem = s.mem := rfl
@[simp] theorem State.skipIf_v (s : State) (c : Bool) : (s.skipIf c).v = s.v := rfl
@[simp] theorem State.skipIf_i (s : State) (c : Bool) : (s.skipIf c).i = s.i := rfl
@[simp] theorem State.skipIf_pc (s : State) (c : Bool) : (s.skipIf c).pc = if c then s.pc + 2 else s.pc := rfl
@[simp] theorem State.skipIf_stack (s : State) (c : Bool) : (s.skipIf c).stack = s.stack := rfl
@[simp] theorem State.skipIf_sp (s : State) (c : Bool) : (s.skipIf c).sp = s.sp := rfl
@[simp] theorem State.skipIf_dt (s : State) (c : Bool) : (s.skipIf c).dt = s.dt := rfl
@[simp] theorem State.skipIf_st (s : State) (c : Bool) : (s.skipIf c).st = s.st := rfl
@[simp] theorem State.skipIf_fb (s : State) (c : Bool) : (s.skipIf c).fb = s.fb := rfl
@[simp] theorem State.skipIf_opcode (s : State) (c : Bool) : (s.skipIf c).opcode = s.opcode := rfl
@[simp] theorem State.skipIf_mode (s : State) (c : Bool) : (s.skipIf c).mode = s.mode := rfl
@[simp] theorem State.skipIf_keys (s : State) (c : Bool) : (s.skipIf c).keys = s.keys := rfl
@[simp] theorem State.skipIf_rnd (s : State) (c : Bool) : (s.skipIf c).rnd = s.rnd := rfl
@[simp] theorem State.skipIf_loadAnswer (s : State) (c : Bool) : (s.skipIf c).loadAnswer = s.loadAnswer := rfl
@[simp] theorem State.skipIf_events (s : State) (c : Bool) : (s.skipIf c).events = s.events := rfl
@[simp] theorem State.skipIf_draws (s : State) (c : Bool) : (s.skipIf c).draws = s.draws := rfl

/-! ### `State.jump` -/

@[simp] theorem State.jump_mem (s : State) (a : Word) : (s.jump a).mem = s.mem := rfl
@[simp] theorem State.jump_v (s : State) (a : Word) : (s.jump a).v = s.v := rfl
@[simp] theorem State.jump_i (s : State) (a : Word) : (s.jump a).i = s.i := rfl
@[simp] theorem State.jump_pc (s : State) (a : Word) : (s.jump a).pc = a := rfl
@[simp] theorem State.jump_stack (s : State) (a : Word) : (s.jump a).stack = s.stack := rfl
@[simp] theorem State.jump_sp (s : State) (a : Word) : (s.jump a).sp = s.sp := rfl
@[simp] theorem State.jump_dt (s : State) (a : Word) : (s.jump a).dt = s.dt := rfl
@[simp] theorem State.jump_st (s : State) (a : Word) : (s.jump a).st = s.st := rfl
@[simp] theorem State.jump_fb (s : State) (a : Word) : (s.jump a).fb = s.fb := rfl
@[simp] theorem State.jump_opcode (s : State) (a : Word) : (s.jump a).opcode = s.opcode := rfl
@[simp] theorem State.jump_mode (s : State) (a : Word) : (s.jump a).mode = s.mode := rfl
@[simp] theorem State.jump_keys (s : State) (a : Word) : (s.jump a).keys = s.keys := rfl
@[simp] theorem State.jump_rnd (s : State) (a : Word) : (s.jump a).rnd = s.rnd := rfl
@[simp] theorem State.jump_loadAnswer (s : State) (a : Word) : (s.jump a).loadAnswer = s.loadAnswer := rfl
@[simp] theorem State.jump_events (s : State) (a : Word) : (s.jump a).events = s.events := rfl
@[simp] theorem State.jump_draws (s : State) (a : Word) : (s.jump a).draws = s.draws := rfl

/-! ### `State.raise` -/

@[simp] theorem State.raise_mem (s : State) (c : Cause) : (s.raise c).mem = s.mem := rfl
@[simp] theorem State.raise_v (s : State) (c : Cause) : (s.raise c).v = s.v := rfl
@[simp] theorem State.raise_i (s : State) (c : Cause) : (s.raise c).i = s.i := rfl
@[simp] theorem State.raise_pc (s : State) (c : Cause) : (s.raise c).pc = s.pc := rfl
@[simp] theorem State.raise_stack (s : State) (c : Cause) : (s.raise c).stack = s.stack := rfl
@[simp] theorem State.raise_sp (s : State) (c : Cause) : (s.raise c).sp = s.sp := rfl
@[simp] theorem State.raise_dt (s : State) (c : Cause) : (s.raise c).dt = s.dt := rfl
@[simp] theorem State.raise_st (s : State) (c : Cause) : (s.raise c).st = s.st := rfl
@[simp] theorem State.raise_fb (s : State) (c : Cause) : (s.raise c).fb = s.fb := rfl
@[simp] theorem State.raise_opcode (s : State) (c : Cause) : (s.raise c).opcode = s.opcode := rfl
@[simp] theorem State.raise_mode (s : State) (c : Cause) : (s.raise c).mode = .halted c := rfl
@[simp] theorem State.raise_keys (s : State) (c : Cause) : (s.raise c).keys = s.keys := rfl
@[simp] theorem State.raise_rnd (s : State) (c : Cause) : (s.raise c).rnd = s.rnd := rfl
@[simp] theorem State.raise_loadAnswer (s : State) (c : Cause) : (s.raise c).loadAnswer = s.loadAnswer := rfl
@[simp] theorem State.raise_events (s : State) (c : Cause) : (s.raise c).events = s.events := rfl
@[simp] theorem State.raise_draws (s : State) (c : Cause) : (s.raise c).draws = s.draws := rfl

/-! ### `State.withInputs` -/

@[simp] theorem State.withInputs_mem (s : State) (k : BitVec 16) (r : Byte) : (s.withInputs k r).mem = s.mem := rfl
@[simp] theorem State.withInputs_v (s : State) (k : BitVec 16) (r : Byte) : (s.withInputs k r).v = s.v := rfl
@[simp] theorem State.withInputs_i (s : State) (k : BitVec 16) (r : Byte) : (s.withInputs k r).i = s.i := rfl
@[simp] theorem State.withInputs_pc (s : State) (k : BitVec 16) (r : Byte) : (s.withInputs k r).pc = s.pc := rfl
@[simp] theorem State.withInputs_stack (s : State) (k : BitVec 16) (r : Byte) : (s.withInputs k r).stack = s.stack := rfl
@[simp] theorem State.withInputs_sp (s : State) (k : BitVec 16) (r : Byte) : (s.withInputs k r).sp = s.sp := rfl
@[simp] theorem State.withInputs_dt (s : State) (k : BitVec 16) (r : Byte) : (s.withInputs k r).dt = s.dt := rfl
@[simp] theorem State.withInputs_st (s : State) (k : BitVec 16) (r : Byte) : (s.withInputs k r).st = s.st := rfl
@[simp] theorem State.withInputs_fb (s : State) (k : BitVec 16) (r : Byte) : (s.withInputs k r).fb = s.fb := rfl
@[simp] theorem State.withInputs_opcode (s : State) (k : BitVec 16) (r : Byte) : (s.withInputs k r).opcode = s.opcode := rfl
@[simp] theorem State.withInputs_mode (s : State) (k : BitVec 16) (r : Byte) : (s.withInputs k r).mode = s.mode := rfl
@[simp] theorem State.withInputs_keys (s : State) (k : BitVec 16) (r : Byte) : (s.withInputs k r).keys = k := rfl
@[simp] theorem State.withInputs_rnd (s : State) (k : BitVec 16) (r : Byte) : (s.withInputs k r).rnd = r := rfl
@[simp] theorem State.withInputs_loadAnswer (s : State) (k : BitVec 16) (r : Byte) : (s.withInputs k r).loadAnswer = s.loadAnswer := rfl
@[simp] theorem State.withInputs_events (s : State) (k : BitVec 16) (r : Byte) : (s.withInputs k r).events = s.events := rfl
@[simp] theorem State.withInputs_draws (s : State) (k : BitVec 16) (r : Byte) : (s.withInputs k r).draws = s.draws := rfl

/-! ### `State.takeEvent` -/

@[simp] theorem State.takeEvent_mem (s : State) : s.takeEvent.mem = s.mem := by
  unfold State.takeEvent; split <;> rfl
@[simp] theorem State.takeEvent_v (s : State) : s.takeEvent.v = s.v := by
  unfold State.takeEvent; split <;> rfl
@[simp] theorem State.takeEvent_i (s : State) : s.takeEvent.i = s.i := by
  unfold State.takeEvent; split <;> rfl
@[simp] theorem State.takeEvent_pc (s : State) : s.takeEvent.pc = s.pc := by
  unfold State.takeEvent; split <;> rfl
@[simp] theorem State.takeEvent_stack (s : State) : s.takeEvent.stack = s.stack := by
  unfold State.takeEvent; split <;> rfl
@[simp] theorem State.takeEvent_sp (s : State) : s.takeEvent.sp = s.sp := by
  unfold State.takeEvent; split <;> rfl
@[simp] theorem State.takeEvent_dt (s : State) : s.takeEvent.dt = s.dt := by
  unfold State.takeEvent; split <;> rfl
@[simp] theorem State.takeEvent_st (s : State) : s.takeEvent.st = s.st := by
  unfold State.takeEvent; split <;> rfl
@[simp] theorem State.takeEvent_fb (s : State) : s.takeEvent.fb = s.fb := by
  unfold State.takeEvent; split <;> rfl
@[simp] theorem State.takeEvent_opcode (s : State) : s.takeEvent.opcode = s.opcode := by
  unfold State.takeEvent; split <;> rfl
@[simp] theorem State.takeEvent_mode (s : State) : s.takeEvent.mode = s.mode := by
  unfold State.takeEvent; split <;> rfl
@[simp] theorem State.takeEvent_keys (s : State) : s.takeEvent.keys = s.keys := by
  unfold State.takeEvent; split <;> rfl
@[simp] theorem State.takeEvent_rnd (s : State) : s.takeEvent.rnd = s.rnd := by
  unfold State.takeEvent; split <;> rfl
@[simp] theorem State.takeEvent_loadAnswer (s : State) : s.takeEvent.loadAnswer = s.loadAnswer := by
  unfold State.takeEvent; split <;> rfl

/-! ### Reading through an update -/

@[simp] theorem State.getV_latch (s : State) (w : Word) (x : RegIx) : (s.latch w).getV x = s.getV x := rfl
@[simp] theorem State.getV_skipIf (s : State) (c : Bool) (x : RegIx) : (s.skipIf c).getV x = s.getV x := rfl
@[simp] theorem State.getV_jump (s : State) (a : Word) (x : RegIx) : (s.jump a).getV x = s.getV x := rfl
@[simp] theorem State.getV_raise (s : State) (c : Cause) (x : RegIx) : (s.raise c).getV x = s.getV x := rfl
@[simp] theorem State.getV_withInputs (s : State) (k : BitVec 16) (r : Byte) (x : RegIx) :
    (s.withInputs k r).getV x = s.getV x := rfl
@[simp] theorem State.getV_takeEvent (s : State) (x : RegIx) : s.takeEvent.getV x = s.getV x := by
  unfold State.getV; simp

/-! ### The next event -/

theorem State.nextEvent_of_listed (s : State) (e : Event) (es : List Event) (h : s.events = e :: es) :
    s.nextEvent = e ∧ s.takeEvent = { s with events := es } := by
  simp [State.nextEvent, State.takeEvent, h]

/-- An event the queue does not list is a free one. -/
theorem State.nextEvent_of_unlisted (s : State) (h : s.events = []) :
    s.nextEvent = Config.freeEvent s.draws ∧
    s.takeEvent = { s with draws := s.draws + 1 } := by
  simp [State.nextEvent, State.takeEvent, h]

end Sys2Proof.Machine
end

