-- ==== Sys2Proof/Laws/Framebuffer.lean ====
section
/-! SUPPORT. The laws of the framebuffer (10_state.md R23) and of the XOR draw (44_display.md R162). -/

namespace Sys2Proof.Machine

/-- A pixel set is read back, and every other pixel stays. -/
theorem Framebuffer.pixel_setPixel (fb : Framebuffer) (r r' : Fin 32) (c c' : Fin 64) (on : Bool) :
    Framebuffer.pixel (Framebuffer.setPixel fb r c on) r' c' =
      if r' = r ∧ c' = c then on else Framebuffer.pixel fb r' c' := by
  unfold Framebuffer.pixel Framebuffer.setPixel
  simp only [Vector.get_eq_getElem, Vector.getElem_set]
  by_cases hr : r' = r
  · subst hr
    by_cases hc : c' = c
    · simp [hc]
    · have : ¬c.val = c'.val := fun h => hc (Fin.ext h.symm)
      simp [hc, this]
  · have : ¬r.val = r'.val := fun h => hr (Fin.ext h.symm)
    simp [hr, this]

@[simp] theorem Framebuffer.pixel_clear (r : Fin 32) (c : Fin 64) : Framebuffer.clear.pixel r c = false := by
  simp [Framebuffer.pixel, Framebuffer.clear, Vector.get_eq_getElem]

/-- Two framebuffers with the same pixels are equal. -/
theorem Framebuffer.ext_pixel {f g : Framebuffer} (h : ∀ r c, Framebuffer.pixel f r c = Framebuffer.pixel g r c) :
    f = g := by
  apply Vector.ext
  intro r hr
  apply Vector.ext
  intro c hc
  simpa [Framebuffer.pixel, Vector.get_eq_getElem] using h ⟨r, hr⟩ ⟨c, hc⟩

/-- What toggling distinct pixels in order leaves: each of them inverted, every other as it was; and the flag says whether one of
them was on before, or the flag was set already. -/
theorem foldl_togglePixel (pixels : List (Fin 32 × Fin 64)) (hn : pixels.Nodup) (fb : Framebuffer) (hit : Bool) :
    (∀ r c, Framebuffer.pixel (pixels.foldl togglePixel (fb, hit)).1 r c =
      (Framebuffer.pixel fb r c ^^ decide ((r, c) ∈ pixels))) ∧
    (pixels.foldl togglePixel (fb, hit)).2 = (hit || pixels.any (fun p => Framebuffer.pixel fb p.1 p.2)) := by
  induction pixels generalizing fb hit with
  | nil => simp
  | cons p ps ih =>
    rw [List.nodup_cons] at hn
    obtain ⟨ih1, ih2⟩ := ih hn.2 (togglePixel (fb, hit) p).1 (togglePixel (fb, hit) p).2
    rw [List.foldl_cons]
    refine ⟨fun r c => ?_, ?_⟩
    · rw [ih1]
      simp only [togglePixel, Framebuffer.pixel_setPixel]
      by_cases h : r = p.1 ∧ c = p.2
      · have hp : (r, c) = p := Prod.ext h.1 h.2
        have hps : (r, c) ∉ ps := by rw [hp]; exact hn.1
        simp [h, hn.1]
      · have hp : (r, c) ≠ p := fun e => h ⟨congrArg Prod.fst e, congrArg Prod.snd e⟩
        simp [h, hp]
    · rw [ih2]
      have : ps.any (fun q => Framebuffer.pixel (togglePixel (fb, hit) p).1 q.1 q.2) =
          ps.any (fun q => Framebuffer.pixel fb q.1 q.2) := by
        rw [Bool.eq_iff_iff]
        simp only [List.any_eq_true, togglePixel]
        refine exists_congr fun q => and_congr_right fun hq => ?_
        have : ¬(q.1 = p.1 ∧ q.2 = p.2) := fun h => hn.1 (Prod.ext h.1 h.2 ▸ hq)
        rw [Framebuffer.pixel_setPixel, if_neg this]
      rw [this]
      simp [togglePixel, Bool.or_assoc]

/-- Everything the XOR draw of distinct pixels does. -/
theorem xorDraw_spec (fb : Framebuffer) (pixels : List (Fin 32 × Fin 64)) (hn : pixels.Nodup) :
    (∀ r c, Framebuffer.pixel (xorDraw fb pixels).1 r c = (Framebuffer.pixel fb r c ^^ decide ((r, c) ∈ pixels))) ∧
    (xorDraw fb pixels).2 = pixels.any (fun p => Framebuffer.pixel fb p.1 p.2) := by
  simpa [xorDraw] using foldl_togglePixel pixels hn fb false

/-- A pixel that is not in the list stays, distinct or not. -/
theorem pixel_xorDraw_other (fb : Framebuffer) (pixels : List (Fin 32 × Fin 64)) (r : Fin 32) (c : Fin 64)
    (h : (r, c) ∉ pixels) : Framebuffer.pixel (xorDraw fb pixels).1 r c = Framebuffer.pixel fb r c := by
  unfold xorDraw
  generalize false = hit
  induction pixels generalizing fb hit with
  | nil => rfl
  | cons p ps ih =>
    rw [List.mem_cons, not_or] at h
    rw [List.foldl_cons, ih _ h.2]
    show Framebuffer.pixel (Framebuffer.setPixel fb p.1 p.2 _) r c = _
    rw [Framebuffer.pixel_setPixel, if_neg fun e => h.1 (Prod.ext e.1 e.2)]

/-- Which pixels a sprite covers (44_display.md R162, R163). -/
theorem mem_spritePixels (p : EdgePolicy) (r0 c0 : Nat) (bs : List Byte) (q : Fin 32 × Fin 64) :
    q ∈ spritePixels p r0 c0 bs ↔
      ∃ (j : Nat) (h : j < bs.length), ∃ c < 8, bs[j].getLsbD (7 - c) = true ∧ edgePixel p (r0 + j) (c0 + c) = some q := by
  induction bs generalizing r0 with
  | nil => simp [spritePixels]
  | cons b bs ih =>
    rw [spritePixels, List.mem_append, ih]
    constructor
    · rintro (h | ⟨j, hj, c, hc, hb, he⟩)
      · obtain ⟨c, hc, he⟩ := List.mem_filterMap.mp h
        simp only [Option.ite_none_right_eq_some] at he
        exact ⟨0, by simp, c, List.mem_range.mp hc, by simpa using he.1, by simpa using he.2⟩
      · exact ⟨j + 1, by simpa using hj, c, hc, by simpa using hb, by rw [← he]; congr 1; omega⟩
    · rintro ⟨j, hj, c, hc, hb, he⟩
      cases j with
      | zero =>
        left
        refine List.mem_filterMap.mpr ⟨c, List.mem_range.mpr hc, ?_⟩
        simp only [List.getElem_cons_zero] at hb
        simpa [hb] using he
      | succ j =>
        right
        exact ⟨j, by simpa using hj, c, hc, by simpa using hb, by rw [← he]; congr 1; omega⟩

/-- Under the wrap policy a pixel of the sprite is the one at row and column modulo 32 and 64 (44_display.md R164). -/
theorem edgePixel_wrap (r c : Nat) (q : Fin 32 × Fin 64) :
    edgePixel .wrap r c = some q ↔ r % 32 = q.1.val ∧ c % 64 = q.2.val := by
  simp [edgePixel, Prod.ext_iff, Fin.ext_iff, Fin.ofNat]

/-- Under the clip policy a pixel outside the screen is not there (44_display.md R164). -/
theorem edgePixel_clip (r c : Nat) (q : Fin 32 × Fin 64) :
    edgePixel .clip r c = some q ↔ r = q.1.val ∧ c = q.2.val := by
  have := q.1.isLt
  have := q.2.isLt
  by_cases h : r < 32 ∧ c < 64
  · simp [edgePixel, h, Prod.ext_iff, Fin.ext_iff]
  · simp only [edgePixel, h, dite_false, reduceCtorEq, false_iff]
    omega

/-- The pixels of one sprite byte are distinct, and all in one row (44_display.md R162). -/
theorem nodup_bytePixels (p : EdgePolicy) (r c0 : Nat) (b : Byte) : (bytePixels p r c0 b).Nodup := by
  refine List.pairwise_filterMap.mpr (List.pairwise_lt_range.imp_of_mem ?_)
  intro c d hc hd hlt q hq q' hq' he
  subst he
  rw [List.mem_range] at hc hd
  simp only [Option.ite_none_right_eq_some] at hq hq'
  cases p with
  | wrap =>
    have h1 := ((edgePixel_wrap _ _ _).mp hq.2).2
    have h2 := ((edgePixel_wrap _ _ _).mp hq'.2).2
    omega
  | clip =>
    have h1 := ((edgePixel_clip _ _ _).mp hq.2).2
    have h2 := ((edgePixel_clip _ _ _).mp hq'.2).2
    omega

/-- The pixels one `DRW` touches are all distinct (44_display.md R162). -/
theorem nodup_spritePixels (p : EdgePolicy) (r0 c0 : Nat) (bs : List Byte) (h : bs.length ≤ 32) :
    (spritePixels p r0 c0 bs).Nodup := by
  induction bs generalizing r0 with
  | nil => simp [spritePixels]
  | cons b bs ih =>
    simp only [List.length_cons] at h
    refine (nodup_bytePixels p r0 c0 b).append (ih (r0 + 1) (by omega)) ?_
    intro q hq hq'
    obtain ⟨c, hc, he⟩ := List.mem_filterMap.mp hq
    rw [Option.ite_none_right_eq_some] at he
    obtain ⟨j, hj, d, hd, -, hd'⟩ := (mem_spritePixels _ _ _ _ _).mp hq'
    cases p with
    | wrap =>
      have h1 := ((edgePixel_wrap _ _ _).mp he.2).1
      have h2 := ((edgePixel_wrap _ _ _).mp hd').1
      omega
    | clip =>
      have h1 := ((edgePixel_clip _ _ _).mp he.2).1
      have h2 := ((edgePixel_clip _ _ _).mp hd').1
      omega

end Sys2Proof.Machine
end

