-- ==== Sys2Proof/Laws/Memory.lean ====
section
/-! SUPPORT. The laws of the memory array and of its access primitives (20_memory.md R45 to R48). -/

namespace Sys2Proof.Machine

/-! ### Read after write -/

theorem Memory.read_erase_same (m : Memory) (a : Nat) : (Memory.erase a m).read a = Memory.unlisted a := by
  induction m with
  | nil => rfl
  | cons e m ih =>
    by_cases h : e.1 = a
    · simpa [Memory.erase, h] using ih
    · have : a ≠ e.1 := fun h' => h h'.symm
      simpa [Memory.erase, h, Memory.read, this] using ih

theorem Memory.read_erase_other (m : Memory) {a c : Nat} (h : c ≠ a) : (Memory.erase a m).read c = m.read c := by
  induction m with
  | nil => rfl
  | cons e m ih =>
    by_cases he : e.1 = a
    · have hc : c ≠ e.1 := by omega
      simpa [Memory.erase, he, Memory.read, hc, h] using ih
    · by_cases hc : c = e.1
      · simp [Memory.erase, he, Memory.read, hc]
      · simpa [Memory.erase, he, Memory.read, hc] using ih

theorem Memory.read_insert_same (m : Memory) (a : Nat) (b : Byte) (h : ∀ e ∈ m, e.1 ≠ a) :
    (Memory.insert a b m).read a = b := by
  induction m with
  | nil => simp [Memory.insert, Memory.read]
  | cons e m ih =>
    have he : a ≠ e.1 := fun h' => h e (by simp) h'.symm
    by_cases hlt : a < e.1
    · simp [Memory.insert, Memory.read, hlt]
    · simpa [Memory.insert, hlt, Memory.read, he] using ih (fun f hf => h f (by simp [hf]))

theorem Memory.read_insert_other (m : Memory) {a c : Nat} (b : Byte) (h : c ≠ a) :
    (Memory.insert a b m).read c = m.read c := by
  induction m with
  | nil => simp [Memory.insert, Memory.read, h]
  | cons e m ih =>
    by_cases hlt : a < e.1
    · simp [Memory.insert, Memory.read, hlt, h]
    · by_cases hc : c = e.1 <;> simp [Memory.insert, hlt, Memory.read, hc, ih]

theorem Memory.erase_keys (m : Memory) (a : Nat) : ∀ e ∈ Memory.erase a m, e.1 ≠ a := by
  intro e he
  simpa [Memory.erase] using (List.mem_filter.mp he).2

/-- A byte written is read back, and every other byte stays (10_state.md R14). -/
theorem Memory.read_write (m : Memory) (a c : Nat) (b : Byte) :
    (m.write a b).read c = if c = a then b else m.read c := by
  unfold Memory.write
  by_cases hc : c = a
  · subst hc
    split
    · simp [Memory.read_erase_same, *]
    · simp [Memory.read_insert_same _ _ _ (Memory.erase_keys m c)]
  · split
    · simp [Memory.read_erase_other _ hc]
    · simp [Memory.read_insert_other _ _ hc, Memory.read_erase_other _ hc]

/-- Consecutive bytes written are read back, and every byte outside them stays (20_memory.md R42). -/
theorem Memory.read_writeList (m : Memory) (a c : Nat) (bs : List Byte) :
    (m.writeList a bs).read c = if h : a ≤ c ∧ c < a + bs.length then bs[c - a]'(by omega) else m.read c := by
  induction bs generalizing m a with
  | nil => simp [Memory.writeList]
  | cons b bs ih =>
    rw [Memory.writeList, ih, Memory.read_write]
    by_cases hc : c = a
    · subst hc; simp
    · by_cases h : a + 1 ≤ c ∧ c < a + 1 + bs.length
      · have h' : a ≤ c ∧ c < a + (b :: bs).length := by simp; omega
        have hk : c - a = (c - (a + 1)) + 1 := by omega
        simp only [h, h', and_self, ↓reduceDIte, hk, List.getElem_cons_succ]
      · have h' : ¬(a ≤ c ∧ c < a + (b :: bs).length) := by simp; omega
        rw [dif_neg h, dif_neg h', if_neg hc]

/-! ### The canonical form -/

theorem Memory.wf_nil : Memory.wf [] := by simp [Memory.wf]

theorem Memory.wf_erase (m : Memory) (a : Nat) (h : m.wf) : (Memory.erase a m).wf :=
  ⟨h.1.filter _, fun e he => h.2 e (List.mem_filter.mp he).1⟩

theorem Memory.mem_insert (m : Memory) (a : Nat) (b : Byte) (e : Host.Cell) :
    e ∈ Memory.insert a b m ↔ e = (a, b) ∨ e ∈ m := by
  induction m with
  | nil => simp [Memory.insert]
  | cons f m ih =>
    unfold Memory.insert
    split
    · simp
    · simp [ih]; tauto

theorem Memory.pairwise_insert (m : Memory) (a : Nat) (b : Byte) (hk : ∀ e ∈ m, e.1 ≠ a)
    (h : m.Pairwise (fun e f => e.1 < f.1)) : (Memory.insert a b m).Pairwise (fun e f => e.1 < f.1) := by
  induction m with
  | nil => simp [Memory.insert]
  | cons f m ih =>
    have hf : f.1 ≠ a := hk f (by simp)
    rw [List.pairwise_cons] at h
    unfold Memory.insert
    split
    · rename_i hlt
      refine List.pairwise_cons.mpr ⟨?_, List.pairwise_cons.mpr h⟩
      intro e he
      rcases List.mem_cons.mp he with rfl | he
      · exact hlt
      · exact lt_trans hlt (h.1 e he)
    · refine List.pairwise_cons.mpr ⟨?_, ih (fun e he => hk e (by simp [he])) h.2⟩
      intro e he
      rcases (Memory.mem_insert m a b e).mp he with rfl | he
      · show f.1 < a; omega
      · exact h.1 e he

/-- Writing one byte of the array keeps the canonical form. -/
theorem Memory.wf_write (m : Memory) (a : Nat) (b : Byte) (ha : a < memSize) (h : m.wf) : (m.write a b).wf := by
  unfold Memory.write
  split
  · exact Memory.wf_erase m a h
  · rename_i hb
    refine ⟨Memory.pairwise_insert _ _ _ (Memory.erase_keys m a) (Memory.wf_erase m a h).1, ?_⟩
    intro e he
    rcases (Memory.mem_insert _ _ _ _).mp he with rfl | he
    · exact ⟨ha, hb⟩
    · exact (Memory.wf_erase m a h).2 e he

/-- Writing consecutive bytes of the array keeps the canonical form. -/
theorem Memory.wf_writeList (m : Memory) (a : Nat) (bs : List Byte) (ha : a + bs.length ≤ memSize) (h : m.wf) :
    (m.writeList a bs).wf := by
  induction bs generalizing m a with
  | nil => exact h
  | cons b bs ih =>
    simp only [List.length_cons] at ha
    exact ih (m.write a b) (a + 1) (by omega) (Memory.wf_write m a b (by omega) h)

/-! ### The access primitives -/

/-- Everything `MemRead` can answer (20_memory.md R46). -/
theorem memRead_eq_some (a n : Nat) (s : State) (bs : List Byte) :
    memRead a n s = some bs ↔ (n = 0 ∨ a + n ≤ memSize) ∧ bs = s.mem.bytes a n := by
  unfold memRead
  split
  · simp; omega
  · simp; constructor
    · rintro rfl; exact ⟨by omega, rfl⟩
    · rintro ⟨-, rfl⟩; rfl

theorem memRead_eq_none (a n : Nat) (s : State) : memRead a n s = none ↔ 0 < n ∧ memSize < a + n := by
  simp [memRead]

/-- Everything `MemWrite` can answer (20_memory.md R47). -/
theorem memWrite_eq_some (a : Nat) (bs : List Byte) (s t : State) :
    memWrite a bs s = some t ↔ a + bs.length ≤ memSize ∧ t = { s with mem := s.mem.writeList a bs } := by
  unfold memWrite
  split
  · simp; omega
  · simp; constructor
    · rintro rfl; exact ⟨by omega, rfl⟩
    · rintro ⟨-, rfl⟩; rfl

theorem memWrite_eq_none (a : Nat) (bs : List Byte) (s : State) : memWrite a bs s = none ↔ memSize < a + bs.length := by
  simp [memWrite]

/-- Everything `Fetch` can answer (20_memory.md R45). -/
theorem fetch_eq_some (s : State) (w : Word) :
    fetch s = some w ↔
      s.pc.toNat + 1 < memSize ∧ w = wordOfBytes (s.mem.read s.pc.toNat) (s.mem.read (s.pc.toNat + 1)) := by
  unfold fetch
  split
  · simp; omega
  · simp; constructor
    · rintro rfl; exact ⟨by omega, rfl⟩
    · rintro ⟨-, rfl⟩; rfl

theorem fetch_eq_none (s : State) : fetch s = none ↔ memSize ≤ s.pc.toNat + 1 := by
  simp [fetch]

@[simp] theorem Memory.length_bytes (m : Memory) (a n : Nat) : (m.bytes a n).length = n := by
  simp [Memory.bytes]

theorem Memory.getElem_bytes (m : Memory) (a n j : Nat) (h : j < (m.bytes a n).length) :
    (m.bytes a n)[j] = m.read (a + j) := by
  simp [Memory.bytes]

end Sys2Proof.Machine
end

