-- ==== Sys2Proof/Laws/Registers.lean ====
section
/-! SUPPORT. The laws of the general registers (10_state.md R10) and of the flag's write order (40_cycle.md R86). -/

namespace Sys2Proof.Machine

/-- A register written is read back, and every other register stays. -/
theorem State.getV_setV (s : State) (x y : RegIx) (b : Byte) :
    (s.setV x b).getV y = if y = x then b else s.getV y := by
  unfold State.getV State.setV
  simp only [Vector.get_eq_getElem, Vector.getElem_set]
  by_cases h : y = x
  · simp [h]
  · have : ¬x.val = y.val := fun h' => h (Fin.ext h'.symm)
    simp [h, this]

@[simp] theorem State.getV_setV_same (s : State) (x : RegIx) (b : Byte) : (s.setV x b).getV x = b := by
  simp [State.getV_setV]

theorem State.getV_setV_other (s : State) {x y : RegIx} (b : Byte) (h : y ≠ x) : (s.setV x b).getV y = s.getV y := by
  simp [State.getV_setV, h]

/-- The flag is written first and the result second (40_cycle.md R86). -/
theorem getV_flagThenResult (s : State) (x y : RegIx) (flag result : Byte) :
    (flagThenResult s x flag result).getV y = if y = x then result else if y = vf then flag else s.getV y := by
  simp [flagThenResult, State.getV_setV]

/-- A run of registers is written in rising order; those outside it stay. -/
theorem State.getV_setVs (s : State) (k : Nat) (bs : List Byte) (y : RegIx) :
    (s.setVs k bs).getV y =
      if h : k ≤ y.val ∧ y.val < k + bs.length then bs[y.val - k]'(by omega) else s.getV y := by
  induction bs generalizing s k with
  | nil => simp [State.setVs]
  | cons b bs ih =>
    rw [State.setVs, ih]
    by_cases hk : k < 16
    · rw [dif_pos hk, State.getV_setV]
      by_cases hy : y = ⟨k, hk⟩
      · subst hy; simp
      · have hne : y.val ≠ k := fun h' => hy (Fin.ext h')
        by_cases h : k + 1 ≤ y.val ∧ y.val < k + 1 + bs.length
        · have h' : k ≤ y.val ∧ y.val < k + (b :: bs).length := by simp; omega
          have hi : y.val - k = (y.val - (k + 1)) + 1 := by omega
          rw [dif_pos h, dif_pos h']
          simp only [hi, List.getElem_cons_succ]
        · have h' : ¬(k ≤ y.val ∧ y.val < k + (b :: bs).length) := by simp; omega
          rw [dif_neg h, dif_neg h', if_neg hy]
    · rw [dif_neg hk, dif_neg (by omega), dif_neg (by omega)]

/-- Writing registers changes registers only. -/
theorem State.setVs_frame (s : State) (k : Nat) (bs : List Byte) : ∃ w, s.setVs k bs = { s with v := w } := by
  induction bs generalizing s k with
  | nil => exact ⟨s.v, rfl⟩
  | cons b bs ih =>
    rw [State.setVs]
    split
    · obtain ⟨w, hw⟩ := ih (s.setV _ b) (k + 1)
      exact ⟨w, by rw [hw]; rfl⟩
    · exact ih s (k + 1)

/-- The bytes `LD [I],Vx` stores are V0 .. VX (43_index_memory.md R145). -/
@[simp] theorem length_regsUpTo (s : State) (x : RegIx) : (regsUpTo s x).length = x.val + 1 := by
  simp [regsUpTo]

theorem getElem_regsUpTo (s : State) (x : RegIx) (j : Nat) (h : j < (regsUpTo s x).length) :
    (regsUpTo s x)[j] = s.getV ⟨j, by simp at h; omega⟩ := by
  simp [regsUpTo, State.getV, Vector.get_eq_getElem]

@[simp] theorem length_bcdDigits (b : Byte) : (bcdDigits b).length = 3 := rfl

end Sys2Proof.Machine
end

