-- ==== Sys2Proof/Laws/Frames.lean ====
section
/-! SUPPORT. What each update leaves alone, in the terms of Safety.lean, and how a step in mode `Running` begins. -/

namespace Sys2Proof.Machine

/-! ### The state in which a step begins -/

@[simp] theorem State.atStep_mem (s : State) (k : BitVec 16) (r : Byte) : (s.atStep k r).mem = s.mem := by
  simp [State.atStep]
@[simp] theorem State.atStep_v (s : State) (k : BitVec 16) (r : Byte) : (s.atStep k r).v = s.v := by
  simp [State.atStep]
@[simp] theorem State.atStep_i (s : State) (k : BitVec 16) (r : Byte) : (s.atStep k r).i = s.i := by
  simp [State.atStep]
@[simp] theorem State.atStep_pc (s : State) (k : BitVec 16) (r : Byte) : (s.atStep k r).pc = s.pc := by
  simp [State.atStep]
@[simp] theorem State.atStep_stack (s : State) (k : BitVec 16) (r : Byte) : (s.atStep k r).stack = s.stack := by
  simp [State.atStep]
@[simp] theorem State.atStep_sp (s : State) (k : BitVec 16) (r : Byte) : (s.atStep k r).sp = s.sp := by
  simp [State.atStep]
@[simp] theorem State.atStep_dt (s : State) (k : BitVec 16) (r : Byte) : (s.atStep k r).dt = s.dt := by
  simp [State.atStep]
@[simp] theorem State.atStep_st (s : State) (k : BitVec 16) (r : Byte) : (s.atStep k r).st = s.st := by
  simp [State.atStep]
@[simp] theorem State.atStep_fb (s : State) (k : BitVec 16) (r : Byte) : (s.atStep k r).fb = s.fb := by
  simp [State.atStep]
@[simp] theorem State.atStep_opcode (s : State) (k : BitVec 16) (r : Byte) : (s.atStep k r).opcode = s.opcode := by
  simp [State.atStep]
@[simp] theorem State.atStep_mode (s : State) (k : BitVec 16) (r : Byte) : (s.atStep k r).mode = s.mode := by
  simp [State.atStep]
@[simp] theorem State.atStep_loadAnswer (s : State) (k : BitVec 16) (r : Byte) : (s.atStep k r).loadAnswer = s.loadAnswer := by
  simp [State.atStep]
@[simp] theorem State.atStep_keys (s : State) (k : BitVec 16) (r : Byte) : (s.atStep k r).keys = k := rfl
@[simp] theorem State.atStep_rnd (s : State) (k : BitVec 16) (r : Byte) : (s.atStep k r).rnd = r := rfl
@[simp] theorem State.getV_atStep (s : State) (k : BitVec 16) (r : Byte) (x : RegIx) :
    (s.atStep k r).getV x = s.getV x := by simp [State.atStep]

@[simp] theorem fetch_atStep (s : State) (k : BitVec 16) (r : Byte) : fetch (s.atStep k r) = fetch s := by
  simp [fetch]

/-- A step in mode `Running` is the cycle (40_cycle.md R81). -/
theorem step_of_runsStep {s : State} {keys : BitVec 16} {rnd : Byte} (h : s.RunsStep keys rnd) :
    step s = cycle (s.atStep keys rnd) := by
  have hm : (s.takeEvent.withInputs keys rnd).mode = .running := by simp [h.1]
  unfold step
  rw [h.2]
  show stepByMode _ = _
  unfold stepByMode
  rw [hm]
  rfl

/-- The cycle past the fetch: an illegal word or the instruction's meaning (40_cycle.md R83 to R85). -/
theorem cycle_of_fetch {s : State} {w : Word} (h : fetch s = some w) :
    cycle s = match decodeWord w with
      | none => .next ((s.latch w).raise .unknownOpcode)
      | some i => exec i (s.latch w) := by
  cases hd : decodeWord w <;> simp only [cycle, h, hd]

/-! ### What a change leaves alone -/

theorem Part.same_refl (s : State) (p : Part) : p.same s s := by cases p <;> rfl

theorem Part.same_trans {s t u : State} {p : Part} (h : p.same s t) (h' : p.same t u) : p.same s u := by
  cases p <;> exact Eq.trans h' h

theorem ChangesOnly.refl (c : Part → Prop) (s : State) : ChangesOnly c s s := fun p _ => Part.same_refl s p

theorem ChangesOnly.mono {c d : Part → Prop} {s t : State} (h : ChangesOnly c s t) (hcd : ∀ p, c p → d p) :
    ChangesOnly d s t := fun p hp => h p (fun hc => hp (hcd p hc))

theorem ChangesOnly.trans {c : Part → Prop} {s t u : State} (h : ChangesOnly c s t) (h' : ChangesOnly c t u) :
    ChangesOnly c s u := fun p hp => Part.same_trans (h p hp) (h' p hp)

theorem changesOnly_setV (s : State) (x : RegIx) (b : Byte) : ChangesOnly (fun p => p = .reg x) s (s.setV x b) := by
  intro p hp
  cases p with
  | reg j => exact State.getV_setV_other s b (fun h => hp (h ▸ rfl))
  | _ => rfl

theorem changesOnly_flagThenResult (s : State) (x : RegIx) (flag result : Byte) :
    ChangesOnly (fun p => p = .reg x ∨ p = .reg vf) s (flagThenResult s x flag result) :=
  ((changesOnly_setV s vf flag).mono fun _ => Or.inr).trans ((changesOnly_setV _ x result).mono fun _ => Or.inl)

theorem changesOnly_setVs (s : State) (bs : List Byte) :
    ChangesOnly (fun p => ∃ j : RegIx, j.val < bs.length ∧ p = .reg j) s (s.setVs 0 bs) := by
  intro p hp
  obtain ⟨w, hw⟩ := State.setVs_frame s 0 bs
  cases p with
  | reg j =>
    show (s.setVs 0 bs).getV j = s.getV j
    rw [State.getV_setVs, dif_neg]
    rintro ⟨-, h⟩
    exact hp ⟨j, by omega, rfl⟩
  | _ => rw [hw]; rfl

theorem changesOnly_latch (s : State) (w : Word) : ChangesOnly (fun p => p = .opcode ∨ p = .pc) s (s.latch w) := by
  intro p hp
  cases p <;> first | rfl | exact absurd (by simp) hp

theorem changesOnly_pc (s : State) (a : Word) : ChangesOnly (fun p => p = .pc) s { s with pc := a } := by
  intro p hp
  cases p <;> first | rfl | exact absurd rfl hp

theorem changesOnly_skipIf (s : State) (c : Bool) : ChangesOnly (fun p => p = .pc) s (s.skipIf c) := changesOnly_pc s _

theorem changesOnly_jump (s : State) (a : Word) : ChangesOnly (fun p => p = .pc) s (s.jump a) := changesOnly_pc s _

theorem changesOnly_mode (s : State) (m : Mode) : ChangesOnly (fun p => p = .mode) s { s with mode := m } := by
  intro p hp
  cases p <;> first | rfl | exact absurd rfl hp

theorem changesOnly_raise (s : State) (c : Cause) : ChangesOnly (fun p => p = .mode) s (s.raise c) := changesOnly_mode s _

theorem changesOnly_index (s : State) (a : Word) : ChangesOnly (fun p => p = .index) s { s with i := a } := by
  intro p hp
  cases p <;> first | rfl | exact absurd rfl hp

theorem changesOnly_dt (s : State) (b : Byte) : ChangesOnly (fun p => p = .dt) s { s with dt := b } := by
  intro p hp
  cases p <;> first | rfl | exact absurd rfl hp

theorem changesOnly_st (s : State) (b : Byte) : ChangesOnly (fun p => p = .st) s { s with st := b } := by
  intro p hp
  cases p <;> first | rfl | exact absurd rfl hp

theorem changesOnly_fb (s : State) (f : Framebuffer) :
    ChangesOnly (fun p => ∃ r c, p = .pixel r c) s { s with fb := f } := by
  intro p hp
  cases p <;> first | rfl | exact absurd ⟨_, _, rfl⟩ hp

/-- A store changes the stored bytes and no other byte of memory. -/
theorem changesOnly_writeList (s : State) (a : Nat) (bs : List Byte) :
    ChangesOnly (fun p => ∃ j < bs.length, p = .byte (a + j)) s { s with mem := s.mem.writeList a bs } := by
  intro p hp
  cases p with
  | byte c =>
    show (s.mem.writeList a bs).read c = s.mem.read c
    rw [Memory.read_writeList, dif_neg]
    rintro ⟨h1, h2⟩
    exact hp ⟨c - a, by omega, by congr 1; omega⟩
  | _ => rfl

/-! ### What the tables of Safety.lean depend on -/

theorem faultIn_congr (i : Instr) {s t : State} (hi : t.i = s.i) (hsp : t.sp = s.sp) (hv : t.v = s.v) :
    i.faultIn t = i.faultIn s := by
  have hg : t.getV = s.getV := by unfold State.getV; rw [hv]
  cases i <;> simp only [Instr.faultIn, hg, hi, hsp]

theorem writes_congr (i : Instr) {s t : State} (hi : t.i = s.i) (hsp : t.sp = s.sp) (hv : t.v = s.v) (hm : t.mem = s.mem)
    (p : Part) : i.writes t p ↔ i.writes s p := by
  cases p <;> simp only [Instr.writes, hi]
  · cases i <;> simp only [Instr.pushesTo, hsp]
  · cases i <;> simp only [Instr.paints, SpriteCovers, State.getV, hi, hv, hm]

/-- What an instruction may write depends on I, SP, the registers and memory alone, so fetch and advance do not change it. -/
theorem mayWrite_congr (i : Instr) {s t : State} (hi : t.i = s.i) (hsp : t.sp = s.sp) (hv : t.v = s.v) (hm : t.mem = s.mem)
    (p : Part) : i.mayWrite t p ↔ i.mayWrite s p := by
  unfold Instr.mayWrite
  rw [faultIn_congr i hi hsp hv]
  split
  · exact Iff.rfl
  · exact writes_congr i hi hsp hv hm p

/-- An instruction without a fault may write what its own effect writes. -/
theorem mayWrite_of_noFault (i : Instr) {s : State} (h : i.faultIn s = none) (p : Part) : i.mayWrite s p ↔ i.writes s p := by
  unfold Instr.mayWrite
  rw [h]

/-- An instruction that faults may write the mode alone. -/
theorem mayWrite_of_fault (i : Instr) {s : State} {c : Cause} (h : i.faultIn s = some c) (p : Part) :
    i.mayWrite s p ↔ p = .mode := by
  unfold Instr.mayWrite
  rw [h]

/-! ### Push and pop -/

/-- Everything a push can answer (41_control_flow.md R103). -/
theorem pushReturn_eq_some (a : Word) (s t : State) :
    pushReturn a s = some t ↔ ∃ h : s.sp.val < 16,
      t = { s with stack := s.stack.set s.sp.val a h, sp := ⟨s.sp.val + 1, by omega⟩ } := by
  unfold pushReturn
  split
  · rename_i h
    simp [h, eq_comm]
  · rename_i h
    simp [h]

theorem pushReturn_eq_none (a : Word) (s : State) : pushReturn a s = none ↔ s.sp.val = 16 := by
  have := s.sp.isLt
  unfold pushReturn
  split <;> simp <;> omega

/-- Everything a pop can answer (41_control_flow.md R101). -/
theorem popReturn_eq_some (s t : State) (a : Word) :
    popReturn s = some (a, t) ↔ ∃ h : 0 < s.sp.val,
      a = s.stack[s.sp.val - 1]'(by have := s.sp.isLt; omega) ∧
      t = { s with sp := ⟨s.sp.val - 1, by have := s.sp.isLt; omega⟩ } := by
  unfold popReturn
  split
  · rename_i h
    simp [h, eq_comm]
  · rename_i h
    simp [h]

theorem popReturn_eq_none (s : State) : popReturn s = none ↔ s.sp.val = 0 := by
  unfold popReturn
  split <;> simp <;> omega

/-! ### Taking a fault -/

/-- What an operation that may fault ends in: its own state, or the fault. -/
theorem orRaise_some (s t : State) (c : Cause) : orRaise s c (some t) = .next t := rfl

theorem orRaise_none (s : State) (c : Cause) : orRaise s c none = .next (s.raise c) := rfl

end Sys2Proof.Machine
end

