-- ==== Sys2Proof/Laws/Events.lean ====
section
/-! SUPPORT. What each of the host's events can do (40_cycle.md R80 to R91, 60_exceptions.md R196, R199), the flags as numbers, the
pixels a sprite covers, and how the inputs commute with the shared operations. -/

namespace Sys2Proof.Machine

/-- Everything a step of the model can be: one of the four events. -/
theorem step_cases (s : State) :
    (s.nextEvent = .reset ∧ step s = .next (resetEvent s.takeEvent)) ∨
    (∃ bytes, s.nextEvent = .load bytes ∧ step s = .next (loadEvent bytes s.takeEvent)) ∨
    (s.nextEvent = .tick ∧ step s = .next (tickEvent s.takeEvent)) ∨
    (∃ keys rnd, s.nextEvent = .step keys rnd ∧ step s = stepByMode (s.atStep keys rnd)) := by
  unfold step
  cases h : s.nextEvent with
  | reset => exact Or.inl ⟨rfl, rfl⟩
  | load bytes => exact Or.inr (Or.inl ⟨bytes, rfl, rfl⟩)
  | step keys rnd => exact Or.inr (Or.inr (Or.inr ⟨keys, rnd, rfl, rfl⟩))
  | tick => exact Or.inr (Or.inr (Or.inl ⟨rfl, rfl⟩))

/-! ### The key that ends a wait (40_cycle.md R87) -/

theorem resolvingKey_eq_some (keys : BitVec 16) (k : Nat) :
    resolvingKey .levelLowestIndex keys = some k ↔
      k < 16 ∧ keys.getLsbD k = true ∧ ∀ j < k, keys.getLsbD j = false := by
  simp only [resolvingKey, List.find?_range_eq_some, List.mem_range, Bool.not_eq_true']
  tauto

theorem resolvingKey_eq_none (keys : BitVec 16) : resolvingKey .levelLowestIndex keys = none ↔ keys = 0 := by
  simp only [resolvingKey, List.find?_eq_none, List.mem_range]
  refine ⟨fun h => BitVec.eq_of_getLsbD_eq fun i hi => by simpa using h i hi, ?_⟩
  rintro rfl
  simp

/-! ### Timers and images -/

/-- One timer as a number: a truncated subtraction (60_exceptions.md R196). -/
theorem toNat_countDown (t : Byte) : (countDown t).toNat = t.toNat - 1 := by
  unfold countDown
  split
  · subst t; rfl
  · rename_i h
    have := t.isLt
    have h1 : t.toNat ≠ 0 := fun h' => h (BitVec.eq_of_toNat_eq h')
    rw [BitVec.toNat_sub]
    have h2 : (1 : Byte).toNat = 1 := rfl
    omega

theorem changesOnly_tickEvent (s : State) : ChangesOnly (fun p => p = .dt ∨ p = .st) s (tickEvent s) := by
  intro p hp
  cases p <;> first | rfl | exact absurd (by simp) hp

theorem changesOnly_loadEvent (bytes : List Byte) (s : State) :
    ChangesOnly (fun p => p = .answer ∨ ∃ j < bytes.length, p = .byte (programBase + j)) s (loadEvent bytes s) := by
  unfold loadEvent
  split
  · intro p hp
    cases p <;> first | rfl | exact absurd (Or.inl rfl) hp
  · intro p hp
    cases p with
    | byte a => exact changesOnly_writeList s programBase bytes (.byte a) fun h => hp (Or.inr h)
    | answer => exact absurd (Or.inl rfl) hp
    | _ => rfl

/-! ### The flags as numbers (10_state.md R13) -/

theorem toNat_flagOf (c : Bool) : (flagOf c).toNat = c.toNat := by cases c <;> rfl

theorem toNat_lowBitFlag (a : Byte) : (lowBitFlag a).toNat = a.toNat % 2 := by
  rw [lowBitFlag, toNat_flagOf, BitVec.getLsbD, Nat.testBit_zero]
  rcases Nat.mod_two_eq_zero_or_one a.toNat with h | h <;> simp [h]

theorem toNat_highBitFlag (a : Byte) : (highBitFlag a).toNat = a.toNat / 128 := by
  have := a.isLt
  rw [highBitFlag, toNat_flagOf, BitVec.getLsbD, Nat.testBit_eq_decide_div_mod_eq]
  have h7 : (2 : Nat) ^ 7 = 128 := rfl
  rw [h7]
  by_cases h : a.toNat / 128 % 2 = 1
  · rw [decide_eq_true h, Bool.toNat_true]; omega
  · rw [decide_eq_false h, Bool.toNat_false]; omega

/-! ### The pixels of a sprite in memory -/

/-- The pixels `DRW` toggles under the wrap policy are those that `SpriteCovers` names (44_display.md R162). -/
theorem mem_spritePixels_wrap (s : State) (x y : RegIx) (n : Nat) (r : Fin 32) (c : Fin 64) :
    (r, c) ∈ spritePixels .wrap (spriteRow s y) (spriteColumn s x) (s.mem.bytes (dataBase s) n) ↔
      SpriteCovers s x y n r c := by
  simp only [mem_spritePixels, edgePixel_wrap, SpriteCovers, spriteRow, spriteColumn, Memory.getElem_bytes,
    Memory.length_bytes, dataBase, exists_prop]

/-! ### The ports and the shared operations -/

theorem popReturn_withInputs (s : State) (k : BitVec 16) (r : Byte) :
    popReturn (s.withInputs k r) = (popReturn s).map (fun p => (p.1, p.2.withInputs k r)) := by
  by_cases h : 0 < s.sp.val
  · rw [(popReturn_eq_some _ _ _).mpr ⟨h, rfl, rfl⟩]
    exact (popReturn_eq_some _ _ _).mpr ⟨h, rfl, rfl⟩
  · rw [(popReturn_eq_none s).mpr (by omega)]
    exact (popReturn_eq_none (s.withInputs k r)).mpr (by rw [State.withInputs_sp]; omega)

theorem pushReturn_withInputs (a : Word) (s : State) (k : BitVec 16) (r : Byte) :
    pushReturn a (s.withInputs k r) = (pushReturn a s).map (fun t => t.withInputs k r) := by
  have := s.sp.isLt
  by_cases h : s.sp.val < 16
  · rw [(pushReturn_eq_some _ _ _).mpr ⟨h, rfl⟩]
    exact (pushReturn_eq_some _ _ _).mpr ⟨h, rfl⟩
  · rw [(pushReturn_eq_none a s).mpr (by omega)]
    exact (pushReturn_eq_none a (s.withInputs k r)).mpr (by rw [State.withInputs_sp]; omega)

theorem memWrite_withInputs (a : Nat) (bytes : List Byte) (s : State) (k : BitVec 16) (r : Byte) :
    memWrite a bytes (s.withInputs k r) = (memWrite a bytes s).map (fun t => t.withInputs k r) := by
  by_cases h : memSize < a + bytes.length <;> simp only [memWrite, h] <;> rfl

theorem setVs_withInputs (s : State) (j : Nat) (bytes : List Byte) (k : BitVec 16) (r : Byte) :
    (s.withInputs k r).setVs j bytes = (s.setVs j bytes).withInputs k r := by
  induction bytes generalizing s j with
  | nil => rfl
  | cons b bs ih =>
    rw [State.setVs, State.setVs, ← ih]
    congr 1
    by_cases h : j < 16 <;> simp only [h] <;> rfl

end Sys2Proof.Machine
end

