-- ==== Sys2Proof/Laws/PerInstr.lean ====
section
/-! SUPPORT. A statement about every instruction as syntax, one lemma per constructor: the encoder's word is of the instruction's own
row of the opcode table, by the row's match and mask (30_encoding.md R64, R66). -/

namespace Sys2Proof.Laws.EncodeRow

/-- The word of `i` is of row `i.row` of 30_encoding.md R66. -/
def Statement (i : Instr) : Prop := ∃ row, opcodeTable[i.row - 1]? = some row ∧ matchesRow (encode i) row = true

/-- A word is of a row when the masked word is the match. -/
theorem of_and (i : Instr) (row : Word × Word) (h : opcodeTable[i.row - 1]? = some row) (hm : encode i &&& row.2 = row.1) :
    Statement i := ⟨row, h, by simpa [matchesRow] using hm⟩

theorem cls : Statement .cls := ⟨_, rfl, rfl⟩
theorem ret : Statement .ret := ⟨_, rfl, rfl⟩
theorem jp (nnn : BitVec 12) : Statement (.jp nnn) := of_and _ _ rfl (formNNN_and_F000 _ _)
theorem call (nnn : BitVec 12) : Statement (.call nnn) := of_and _ _ rfl (formNNN_and_F000 _ _)
theorem seImm (x : RegIx) (nn : Byte) : Statement (.seImm x nn) := of_and _ _ rfl (formXNN_and_F000 _ _ _)
theorem sneImm (x : RegIx) (nn : Byte) : Statement (.sneImm x nn) := of_and _ _ rfl (formXNN_and_F000 _ _ _)
theorem seReg (x y : RegIx) : Statement (.seReg x y) := of_and _ _ rfl (formXYN_and_F00F _ _ _ _)
theorem ldImm (x : RegIx) (nn : Byte) : Statement (.ldImm x nn) := of_and _ _ rfl (formXNN_and_F000 _ _ _)
theorem addImm (x : RegIx) (nn : Byte) : Statement (.addImm x nn) := of_and _ _ rfl (formXNN_and_F000 _ _ _)
theorem ldReg (x y : RegIx) : Statement (.ldReg x y) := of_and _ _ rfl (formXYN_and_F00F _ _ _ _)
theorem orReg (x y : RegIx) : Statement (.orReg x y) := of_and _ _ rfl (formXYN_and_F00F _ _ _ _)
theorem andReg (x y : RegIx) : Statement (.andReg x y) := of_and _ _ rfl (formXYN_and_F00F _ _ _ _)
theorem xorReg (x y : RegIx) : Statement (.xorReg x y) := of_and _ _ rfl (formXYN_and_F00F _ _ _ _)
theorem addReg (x y : RegIx) : Statement (.addReg x y) := of_and _ _ rfl (formXYN_and_F00F _ _ _ _)
theorem subReg (x y : RegIx) : Statement (.subReg x y) := of_and _ _ rfl (formXYN_and_F00F _ _ _ _)
theorem shr (x : RegIx) : Statement (.shr x) := of_and _ _ rfl (formXYN_and_F00F _ _ _ _)
theorem subnReg (x y : RegIx) : Statement (.subnReg x y) := of_and _ _ rfl (formXYN_and_F00F _ _ _ _)
theorem shl (x : RegIx) : Statement (.shl x) := of_and _ _ rfl (formXYN_and_F00F _ _ _ _)
theorem sneReg (x y : RegIx) : Statement (.sneReg x y) := of_and _ _ rfl (formXYN_and_F00F _ _ _ _)
theorem ldI (nnn : BitVec 12) : Statement (.ldI nnn) := of_and _ _ rfl (formNNN_and_F000 _ _)
theorem jpV0 (nnn : BitVec 12) : Statement (.jpV0 nnn) := of_and _ _ rfl (formNNN_and_F000 _ _)
theorem rnd (x : RegIx) (nn : Byte) : Statement (.rnd x nn) := of_and _ _ rfl (formXNN_and_F000 _ _ _)
theorem drw (x y : RegIx) (n : Nat) : Statement (.drw x y n) := of_and _ _ rfl (formXYN_and_F000 _ _ _ _)
theorem skp (x : RegIx) : Statement (.skp x) := of_and _ _ rfl (formXNN_and_F0FF _ _ _)
theorem sknp (x : RegIx) : Statement (.sknp x) := of_and _ _ rfl (formXNN_and_F0FF _ _ _)
theorem ldVxDt (x : RegIx) : Statement (.ldVxDt x) := of_and _ _ rfl (formXNN_and_F0FF _ _ _)
theorem ldVxKey (x : RegIx) : Statement (.ldVxKey x) := of_and _ _ rfl (formXNN_and_F0FF _ _ _)
theorem ldDtVx (x : RegIx) : Statement (.ldDtVx x) := of_and _ _ rfl (formXNN_and_F0FF _ _ _)
theorem ldStVx (x : RegIx) : Statement (.ldStVx x) := of_and _ _ rfl (formXNN_and_F0FF _ _ _)
theorem addI (x : RegIx) : Statement (.addI x) := of_and _ _ rfl (formXNN_and_F0FF _ _ _)
theorem ldFont (x : RegIx) : Statement (.ldFont x) := of_and _ _ rfl (formXNN_and_F0FF _ _ _)
theorem ldBcd (x : RegIx) : Statement (.ldBcd x) := of_and _ _ rfl (formXNN_and_F0FF _ _ _)
theorem storeRegs (x : RegIx) : Statement (.storeRegs x) := of_and _ _ rfl (formXNN_and_F0FF _ _ _)
theorem loadRegs (x : RegIx) : Statement (.loadRegs x) := of_and _ _ rfl (formXNN_and_F0FF _ _ _)

end Sys2Proof.Laws.EncodeRow
end

