-- ==== Sys2Proof/Tests/Slice0.lean ====
section
/-! SUPPORT. Tests on fixed values, the expected results taken from spec/95_test_vectors.md (the vector is named at each test), and a
witness for the hypotheses of each statement. -/

namespace Sys2Proof.Tests

open Sys2Proof.Machine

/-! ### Helpers -/

/-- The state a step leads to. -/
def after (s : State) : State :=
  match step s with
  | .next t => t
  | .fault _ => s
  | .refused _ => s

/-- The word at 0x200, and one step event with these inputs. -/
def loaded (w : Word) (s : State) (keys : BitVec 16 := 0) (rnd : Byte := 0) : State :=
  { s with mem := s.mem.writeList 0x200 (bytesOfWord w), events := [.step keys rnd] }

/-- One step on the word at 0x200. -/
def run (w : Word) (s : State) (keys : BitVec 16 := 0) (rnd : Byte := 0) : State := after (loaded w s keys rnd)

/-- The reset state with some registers set. -/
def regs (vals : List (RegIx × Byte)) : State := vals.foldl (fun s p => s.setV p.1 p.2) State.reset

/-- A state with I set. -/
def atI (a : Word) (s : State) : State := { s with i := a }

/-- A state with bytes at 0x300. -/
def sprite (bytes : List Byte) (s : State) : State := { s with mem := s.mem.writeList 0x300 bytes, i := 0x300 }

/-- The columns that are on in a row. -/
def litColumns (s : State) (r : Fin 32) : List Nat :=
  (List.range 64).filter (fun c => Framebuffer.pixel s.fb r (Fin.ofNat 64 c))

/-- One pixel lit. -/
def lit (r : Fin 32) (c : Fin 64) (s : State) : State := { s with fb := Framebuffer.setPixel s.fb r c true }

/-! ### Well-formedness -/

theorem test_wf_refuses_sixteen_rows : (Instr.drw 0 0 16).wf = false := by decide
theorem test_wf_accepts_fifteen_rows : (Instr.drw 0 0 15).wf = true := by decide

/-! ### Decoding: one word per constructor, written bit by bit from 30_encoding.md R66 -/

theorem test_decode_control_flow :
    decodeWord 0b0000000011101110#16 = some .ret ∧
    decodeWord 0b0001101010111100#16 = some (.jp 0xABC#12) ∧
    decodeWord 0b0010001100000001#16 = some (.call 0x301#12) ∧
    decodeWord 0b0011101001000010#16 = some (.seImm 10 0x42#8) ∧
    decodeWord 0b0100101001000010#16 = some (.sneImm 10 0x42#8) ∧
    decodeWord 0b0101101010110000#16 = some (.seReg 10 11) ∧
    decodeWord 0b1001101010110000#16 = some (.sneReg 10 11) ∧
    decodeWord 0b1011001000010000#16 = some (.jpV0 0x210#12) := by decide

theorem test_decode_alu :
    decodeWord 0b0110101001111111#16 = some (.ldImm 10 0x7F#8) ∧
    decodeWord 0b0111101000000001#16 = some (.addImm 10 0x01#8) ∧
    decodeWord 0b1000101010110000#16 = some (.ldReg 10 11) ∧
    decodeWord 0b1000000100100001#16 = some (.orReg 1 2) ∧
    decodeWord 0b1000000100100010#16 = some (.andReg 1 2) ∧
    decodeWord 0b1000000100100011#16 = some (.xorReg 1 2) ∧
    decodeWord 0b1000000100100100#16 = some (.addReg 1 2) ∧
    decodeWord 0b1000000100100101#16 = some (.subReg 1 2) ∧
    decodeWord 0b1000101010110110#16 = some (.shr 10) ∧
    decodeWord 0b1000000100100111#16 = some (.subnReg 1 2) ∧
    decodeWord 0b1000000100101110#16 = some (.shl 1) ∧
    decodeWord 0b1100001100001111#16 = some (.rnd 3 0x0F#8) := by decide

theorem test_decode_index_memory :
    decodeWord 0b1010001011110000#16 = some (.ldI 0x2F0#12) ∧
    decodeWord 0b1111000100011110#16 = some (.addI 1) ∧
    decodeWord 0b1111000100101001#16 = some (.ldFont 1) ∧
    decodeWord 0b1111000100110011#16 = some (.ldBcd 1) ∧
    decodeWord 0b1111001001010101#16 = some (.storeRegs 2) ∧
    decodeWord 0b1111001001100101#16 = some (.loadRegs 2) := by decide

theorem test_decode_display :
    decodeWord 0b0000000011100000#16 = some .cls ∧ decodeWord 0b1101000100100101#16 = some (.drw 1 2 5) := by decide

theorem test_decode_timer_keypad :
    decodeWord 0b1111010000000111#16 = some (.ldVxDt 4) ∧
    decodeWord 0b1111001000001010#16 = some (.ldVxKey 2) ∧
    decodeWord 0b1111001100010101#16 = some (.ldDtVx 3) ∧
    decodeWord 0b1111001100011000#16 = some (.ldStVx 3) ∧
    decodeWord 0b1110001110011110#16 = some (.skp 3) ∧
    decodeWord 0b1110001110100001#16 = some (.sknp 3) := by decide

/-- V-DEC: the illegal words. -/
theorem test_decode_illegal :
    ([0x0000, 0x00E1, 0x00EF, 0x01E0, 0x0123, 0x0FFF, 0x5121, 0x512F, 0x8128, 0x8129, 0x812A, 0x812B, 0x812C, 0x812D, 0x812F,
      0x9121, 0xE19F, 0xE1A0, 0xE10E, 0xE1EE, 0xE100, 0xF100, 0xF105, 0xF10B, 0xF175, 0xF185, 0xF1FF, 0xF11F] : List Word).all
      (fun w => decodeWord w == none) = true := by decide

theorem test_decode_bytes_high_first : decode [0x12, 0x34, 0xFF] = .ok (.jp 0x234#12, [0xFF]) := by decide
theorem test_decode_truncated : decode [0x12] = .error .truncated := by decide
theorem test_encode_shift_writes_zero_y : encode (.shr 10) = 0x8A06#16 := by decide

/-! ### Fetch (V-FETCH) -/

/-- V-FETCH 1; V-CTL 1 is the same instruction. -/
theorem test_fetch_big_endian_jump :
    (run 0x1234#16 State.reset).opcode = 0x1234#16 ∧ (run 0x1234#16 State.reset).pc = 0x234#16 := by decide

/-- V-FETCH 4: the last address with two bytes below 0x1000 that an odd PC can fetch. -/
theorem test_fetch_odd_address :
    (after { State.reset with mem := [(0xFFD, 0x60), (0xFFE, 0x07)], pc := 0xFFD, events := [.step 0 0] }).getV 0 = 7 := by decide

/-- V-FETCH 6. -/
theorem test_fetch_faults_at_the_last_byte :
    after { State.reset with pc := 0xFFF, opcode := 0x1FFF, events := [.step 0 0] } =
      { State.reset with pc := 0xFFF, opcode := 0x1FFF, mode := .halted .invalidFetch } := by decide +kernel

/-- F7. -/
theorem test_unknown_opcode :
    (run 0x5011#16 State.reset).mode = .halted .unknownOpcode ∧ (run 0x5011#16 State.reset).pc = 0x202#16 := by decide

/-! ### Control flow (V-CTL) -/

/-- V-CTL 4. -/
theorem test_ret :
    let t := run 0x00EE#16 { State.reset with sp := 1, stack := State.reset.stack.set 0 0x456#16 }
    t.pc = 0x456#16 ∧ t.sp = 0 := by decide

/-- F1. -/
theorem test_ret_underflow :
    (run 0x00EE#16 State.reset).mode = .halted .stackUnderflow ∧ (run 0x00EE#16 State.reset).pc = 0x202#16 := by decide

/-- V-CTL 3. -/
theorem test_call :
    let t := run 0x2300#16 State.reset
    t.stack.get 0 = 0x202#16 ∧ t.sp = 1 ∧ t.pc = 0x300#16 := by decide

/-- F2, the seventeenth call. -/
theorem test_call_overflow :
    let t := run 0x2200#16 { State.reset with sp := 16 }
    t.mode = .halted .stackOverflow ∧ t.sp = 16 ∧ t.pc = 0x202#16 := by decide

/-- V-CTL 5, 6. -/
theorem test_se_imm :
    (run 0x3A42#16 (regs [(10, 0x42)])).pc = 0x204#16 ∧ (run 0x3A42#16 (regs [(10, 0x43)])).pc = 0x202#16 := by decide

/-- V-CTL 7, 8. -/
theorem test_sne_imm :
    (run 0x4A42#16 (regs [(10, 0x42)])).pc = 0x202#16 ∧ (run 0x4A42#16 (regs [(10, 0x43)])).pc = 0x204#16 := by decide

/-- V-CTL 9, 10. -/
theorem test_se_reg :
    (run 0x5AB0#16 (regs [(10, 7), (11, 7)])).pc = 0x204#16 ∧
    (run 0x5AB0#16 (regs [(10, 7), (11, 8)])).pc = 0x202#16 := by decide

/-- V-CTL 12, 13. -/
theorem test_sne_reg :
    (run 0x9AB0#16 (regs [(10, 7), (11, 8)])).pc = 0x204#16 ∧
    (run 0x9AB0#16 (regs [(10, 7), (11, 7)])).pc = 0x202#16 := by decide

/-- V-CTL 16. -/
theorem test_jp_v0_is_not_reduced :
    (run 0xBFFF#16 (regs [(0, 0xFF)])).pc = 0x10FE#16 ∧ (run 0xBFFF#16 (regs [(0, 0xFF)])).mode = .running := by decide

/-! ### Registers and arithmetic (V-ALU) -/

/-- V-ALU-1. -/
theorem test_ld_imm : (run 0x6A7F#16 State.reset).getV 10 = 0x7F ∧ (run 0x6F01#16 State.reset).getV vf = 1 := by decide

/-- V-ALU-1. -/
theorem test_add_imm_has_no_flag :
    (run 0x7A01#16 (regs [(10, 0xFF), (15, 7)])).getV 10 = 0 ∧
    (run 0x7A01#16 (regs [(10, 0xFF), (15, 7)])).getV vf = 7 := by decide

/-- V-ALU-1. -/
theorem test_ld_reg : (run 0x8AB0#16 (regs [(11, 0x3C)])).getV 10 = 0x3C := by decide

/-- V-ALU-2. -/
theorem test_or :
    (run 0x8011#16 (regs [(0, 0xCA), (1, 0x5C), (15, 9)])).getV 0 = 0xDE ∧
    (run 0x8011#16 (regs [(0, 0xCA), (1, 0x5C), (15, 9)])).getV vf = 9 := by decide

/-- V-ALU-2. -/
theorem test_and : (run 0x8012#16 (regs [(0, 0xCA), (1, 0x5C)])).getV 0 = 0x48 := by decide

/-- V-ALU-2. -/
theorem test_xor : (run 0x8013#16 (regs [(0, 0xCA), (1, 0x5C)])).getV 0 = 0x96 := by decide

/-- V-ALU-4, then V-ALU-8: with Y = F the old VF is the addend and the flag survives. -/
theorem test_add_reg :
    (run 0x8014#16 (regs [(0, 0xF0), (1, 0x20)])).getV 0 = 0x10 ∧
    (run 0x8014#16 (regs [(0, 0xF0), (1, 0x20)])).getV vf = 1 ∧
    (run 0x81F4#16 (regs [(1, 0xFF), (15, 2)])).getV 1 = 1 ∧
    (run 0x81F4#16 (regs [(1, 0xFF), (15, 2)])).getV vf = 1 := by decide

/-- V-ALU-8: with X = F the sum wins. -/
theorem test_add_reg_into_vf : (run 0x8F14#16 (regs [(15, 5), (1, 3)])).getV vf = 8 := by decide

/-- V-ALU-5. -/
theorem test_sub_reg :
    (run 0x8015#16 (regs [(0, 5), (1, 7)])).getV 0 = 0xFE ∧ (run 0x8015#16 (regs [(0, 5), (1, 7)])).getV vf = 0 ∧
    (run 0x8015#16 (regs [(0, 1), (1, 1)])).getV vf = 1 := by decide

/-- V-ALU-8. -/
theorem test_sub_reg_into_vf : (run 0x8F15#16 (regs [(15, 3), (1, 5)])).getV vf = 0xFE := by decide

/-- V-ALU-6. -/
theorem test_subn_reg :
    (run 0x8017#16 (regs [(0, 5), (1, 7)])).getV 0 = 2 ∧ (run 0x8017#16 (regs [(0, 5), (1, 7)])).getV vf = 1 ∧
    (run 0x8017#16 (regs [(0, 7), (1, 5)])).getV vf = 0 := by decide

/-- V-ALU-8. -/
theorem test_subn_reg_from_vf :
    (run 0x81F7#16 (regs [(1, 5), (15, 3)])).getV 1 = 0xFE ∧ (run 0x81F7#16 (regs [(1, 5), (15, 3)])).getV vf = 0 := by decide

/-- V-ALU-7: Y is neither read nor written. -/
theorem test_shr :
    let t := run 0x8AB6#16 (regs [(10, 5), (11, 0xF0)])
    t.getV 10 = 2 ∧ t.getV 11 = 0xF0 ∧ t.getV vf = 1 := by decide

/-- V-ALU-8. -/
theorem test_shr_vf : (run 0x8F16#16 (regs [(15, 0x81)])).getV vf = 0x40 := by decide

/-- V-ALU-7. -/
theorem test_shl :
    (run 0x800E#16 (regs [(0, 0x81)])).getV 0 = 2 ∧ (run 0x800E#16 (regs [(0, 0x81)])).getV vf = 1 := by decide

/-- V-ALU-8. -/
theorem test_shl_vf : (run 0x8F1E#16 (regs [(15, 5)])).getV vf = 0x0A := by decide

/-- V-ALU-3. -/
theorem test_rnd :
    (run 0xC00F#16 State.reset 0 0xA7).getV 0 = 7 ∧ (run 0xC1FF#16 State.reset 0 0xA7).getV 1 = 0xA7 ∧
    (run 0xC200#16 (regs [(2, 9)]) 0 0xA7).getV 2 = 0 := by decide

/-! ### Index register and memory (V-IDX) -/

/-- V-IDX 1. -/
theorem test_ld_i : (run 0xA2F0#16 State.reset).i = 0x2F0#16 := by decide

/-- V-IDX 2a, 2b. -/
theorem test_add_i :
    (run 0xF01E#16 (atI 0xFFF (regs [(0, 1)]))).i = 0x1000#16 ∧ (run 0xF01E#16 (atI 0xFFFF (regs [(0, 1)]))).i = 0 := by decide

/-- V-IDX 3. -/
theorem test_ld_font : (run 0xF029#16 (regs [(0, 0x0F)])).i = 0x9B#16 := by decide

/-- V-IDX 3a. -/
theorem test_ld_font_invalid_digit :
    let t := run 0xF029#16 (regs [(0, 0x10)])
    t.mode = .halted .invalidDigit ∧ t.i = 0 ∧ t.pc = 0x202#16 := by decide

/-- V-IDX 4. -/
theorem test_ld_bcd :
    (run 0xF033#16 (atI 0x300 (regs [(0, 0x9C)]))).mem.bytes 0x300 3 = [1, 5, 6] := by decide

/-- V-IDX 4b. -/
theorem test_ld_bcd_past_the_top :
    let t := run 0xF033#16 (atI 0xFFE (regs [(0, 0xFF)]))
    t.mode = .halted .invalidAccess ∧ t.mem.bytes 0xFFE 2 = [0, 0] := by decide

/-- V-IDX 5. -/
theorem test_store_regs :
    let t := run 0xF255#16 (atI 0x400 (regs [(0, 1), (1, 2), (2, 3), (3, 4)]))
    t.mem.bytes 0x400 4 = [1, 2, 3, 0] ∧ t.i = 0x400#16 := by decide

/-- V-IDX 5b. -/
theorem test_store_regs_past_the_top :
    (run 0xFF55#16 (atI 0xFF1 State.reset)).mode = .halted .invalidAccess := by decide

/-- V-IDX 6. -/
theorem test_load_regs :
    let t := run 0xF165#16 { State.reset with mem := [(0x400, 0xAA), (0x401, 0xBB), (0x402, 0xCC)], i := 0x400 }
    t.getV 0 = 0xAA ∧ t.getV 1 = 0xBB ∧ t.getV 2 = 0 := by decide

/-- V-IDX 6b, 7. -/
theorem test_load_regs_past_the_top_and_from_the_font :
    (run 0xF065#16 (atI 0x1000 State.reset)).mode = .halted .invalidAccess ∧
    (run 0xF065#16 (atI 0x50 State.reset)).getV 0 = 0xF0 := by decide

/-! ### Display (V-DRW) -/

/-- V-DRW 13. -/
theorem test_cls :
    let t := run 0x00E0#16 (lit 31 63 (regs [(15, 1)]))
    t.fb = Framebuffer.clear ∧ t.getV vf = 1 := by decide +kernel

/-- V-DRW 11: both wraps at the bottom right corner. -/
theorem test_drw_wraps :
    let t := run 0xD012#16 (sprite [0xFF, 0x81] (regs [(0, 0xFF), (1, 0xFF)]))
    litColumns t 31 = [0, 1, 2, 3, 4, 5, 6, 63] ∧ litColumns t 0 = [6, 63] ∧ t.getV vf = 0 := by decide +kernel

/-- V-DRW 5, 6: one collision is enough, and a 0 bit tests nothing. -/
theorem test_drw_collision :
    let t := run 0xD011#16 (lit 0 0 (sprite [0xC0] State.reset))
    let u := run 0xD011#16 (lit 0 0 (sprite [0x40] State.reset))
    litColumns t 0 = [1] ∧ t.getV vf = 1 ∧ litColumns u 0 = [0, 1] ∧ u.getV vf = 0 := by decide +kernel

/-! ### Timers and keypad (V-TMR, V-KEY) -/

/-- V-TMR 3. -/
theorem test_ld_vx_dt : (run 0xF407#16 { State.reset with dt := 0x2A }).getV 4 = 0x2A := by decide

/-- V-TMR 1. -/
theorem test_ld_dt_vx :
    (run 0xF315#16 (regs [(3, 0x3C)])).dt = 0x3C ∧ (run 0xF315#16 (regs [(3, 0x3C)])).st = 0 := by decide

/-- V-TMR 2. -/
theorem test_ld_st_vx :
    (run 0xF318#16 (regs [(3, 2)])).st = 2 ∧ (run 0xF318#16 (regs [(3, 2)])).dt = 0 := by decide

/-- V-KEY 1, 2. -/
theorem test_skp :
    (run 0xE39E#16 (regs [(3, 5)]) 0x0020#16).pc = 0x204#16 ∧ (run 0xE39E#16 (regs [(3, 5)]) 0xFFDF#16).pc = 0x202#16 := by decide

/-- V-KEY 6. -/
theorem test_skp_invalid_key : (run 0xE39E#16 (regs [(3, 0x10)])).mode = .halted .invalidKey := by decide

/-- V-KEY 3, 4. -/
theorem test_sknp :
    (run 0xE3A1#16 (regs [(3, 5)]) 0x0020#16).pc = 0x202#16 ∧ (run 0xE3A1#16 (regs [(3, 5)]) 0x0000#16).pc = 0x204#16 := by decide

/-- V-KEY 6. -/
theorem test_sknp_invalid_key : (run 0xE3A1#16 (regs [(3, 0x10)])).mode = .halted .invalidKey := by decide

/-- V-KEY 7: the executing step does not look at the keys. -/
theorem test_ld_vx_key :
    let t := run 0xF20A#16 State.reset 0xFFFF#16
    t.mode = .awaitingKey 2 ∧ t.pc = 0x202#16 ∧ t.getV 2 = 0 := by decide

/-- V-KEY 9: the lowest key ends the wait, and this step fetches nothing. -/
theorem test_key_wait_ends :
    let t := after { State.reset with mode := .awaitingKey 2, pc := 0x202, events := [.step 0x0210#16 0] }
    t.getV 2 = 4 ∧ t.mode = .running ∧ t.pc = 0x202#16 := by decide

/-! ### The other events (V-TMR, V-FLT) -/

/-- V-TMR 7, and the floor of V-TMR 5. -/
theorem test_tick_in_halted_mode :
    let t := after { State.reset with mode := .halted .invalidKey, dt := 5, events := [.tick] }
    t.dt = 4 ∧ t.st = 0 ∧ t.mode = .halted .invalidKey := by decide

/-- V-FLT 7. -/
theorem test_load_leaves_pc :
    let t := after { State.reset with pc := 0x300, events := [.load [0xAB, 0xCD]] }
    t.mem.bytes 0x200 3 = [0xAB, 0xCD, 0] ∧ t.pc = 0x300#16 ∧ t.loadAnswer = some .accepted := by decide

/-- V-FLT 5, 3: the largest image, and one byte more. -/
theorem test_image_size :
    imageAnswer (List.replicate 3584 0) = .accepted ∧ imageAnswer (List.replicate 3585 0) = .imageTooLarge := by
  simp only [imageAnswer, List.length_replicate, programMax]; decide

/-- V-FLT 4. -/
theorem test_reset_event :
    after { regs [(3, 1)] with mem := [(0x200, 1)], mode := .halted .invalidFetch, dt := 9, pc := 0xFFF, events := [.reset] } =
      State.reset := by decide +kernel

/-- V-IDX 8: the font is writable, and a font byte written back to its reset value leaves the list empty (log entry 6). -/
theorem test_memory_form :
    (Memory.write [] 0x050 0x00).read 0x050 = 0 ∧ Memory.write (Memory.write [] 0x050 0x00) 0x050 0xF0 = [] := by decide

/-! ### Witnesses: for each statement with hypotheses, a state and operands that meet them, clause by clause -/

/-- A running state whose next event is a step. -/
theorem test_witness_RunsStep : (loaded 0x00E0#16 State.reset 0x8000#16 7).RunsStep 0x8000#16 7 := ⟨rfl, rfl⟩

theorem test_witness_DecodeOfEncodeIsIdentity : (Instr.drw 1 2 15).wf = true ∧ (Instr.jp 0xFFF#12).wf = true := by decide

theorem test_witness_WordIsAnInstruction_row :
    decodeWord 0xF1FF#16 = none ∧ decodeWord 0xF165#16 = some (.loadRegs 1) ∧
    opcodeTable[33]? = some (0xF065#16, 0xF0FF#16) ∧ 0xF165#16 &&& 0xF0FF#16 = 0xF065#16 := by decide

theorem test_witness_WordIsAnInstruction_illegal :
    (loaded 0x5121#16 State.reset).RunsStep 0 0 ∧ fetch (loaded 0x5121#16 State.reset) = some 0x5121#16 ∧
    ∀ row ∈ opcodeTable, 0x5121#16 &&& row.2 ≠ row.1 := by
  refine ⟨⟨rfl, rfl⟩, by decide, fun row hrow => ?_⟩
  have h : opcodeTable.all (fun row => 0x5121#16 &&& row.2 != row.1) = true := by decide
  simpa using List.all_eq_true.mp h row hrow

theorem test_witness_IllegalWords :
    (loaded 0x8128#16 State.reset).RunsStep 0 0 ∧ fetch (loaded 0x8128#16 State.reset) = some 0x8128#16 ∧
    decodeWord 0x8128#16 = none := by
  refine ⟨⟨rfl, rfl⟩, ?_, ?_⟩ <;> decide

theorem test_witness_RowsAreDisjoint :
    opcodeTable[0]? = some (0x00E0#16, 0xFFFF#16) ∧ 0x00E0#16 &&& 0xFFFF#16 = 0x00E0#16 := by decide

theorem test_witness_OnlyShiftsHaveADontCareField :
    decodeWord 0x9AB0#16 = some (.sneReg 10 11) ∧ (∀ x, Instr.sneReg 10 11 ≠ .shr x) ∧
    (∀ x, Instr.sneReg 10 11 ≠ .shl x) := by decide

theorem test_witness_DecodedInstructionIsWellFormed : decode [0xD1, 0x2F, 0x00] = .ok (.drw 1 2 15, [0x00]) := by decide

/-- The highest address from which a word is fetched. -/
theorem test_witness_StepRunsTheDecodedInstruction :
    let s : State := { State.reset with mem := [(0xFFE, 0x60), (0xFFF, 0x07)], pc := 0xFFE, events := [.step 1 2] }
    s.RunsStep 1 2 ∧ s.pc.toNat < 0xFFF ∧ (Instr.ldImm 0 7).wf = true ∧
    decode [s.mem.read s.pc.toNat, s.mem.read (s.pc.toNat + 1)] = .ok (.ldImm 0 7, []) := by
  refine ⟨⟨rfl, rfl⟩, ?_, ?_, ?_⟩ <;> decide

theorem test_witness_Fetch_inside : ({ State.reset with pc := 0xFFE } : State).pc.toNat < 0xFFF := by decide

theorem test_witness_Fetch_beyond :
    let s : State := { State.reset with pc := 0xFFF, events := [.step 0 0] }
    s.RunsStep 0 0 ∧ 0xFFF ≤ s.pc.toNat := by
  refine ⟨⟨rfl, rfl⟩, ?_⟩; decide

theorem test_witness_UnknownOpcodeHaltsPastTheWord :
    (loaded 0xE100#16 State.reset).RunsStep 0 0 ∧ fetch (loaded 0xE100#16 State.reset) = some 0xE100#16 ∧
    decodeWord 0xE100#16 = none := by
  refine ⟨⟨rfl, rfl⟩, ?_, ?_⟩ <;> decide

theorem test_witness_KeyWait_no_key :
    let s : State := { State.reset with mode := .awaitingKey 15, events := [.step 0 9] }
    s.mode = .awaitingKey 15 ∧ s.nextEvent = .step 0 9 := ⟨rfl, rfl⟩

/-- The highest key alone, and the lowest of several. -/
theorem test_witness_KeyWait_key :
    let s : State := { State.reset with mode := .awaitingKey 15, events := [.step 0x8000 9] }
    let u : State := { State.reset with mode := .awaitingKey 0, events := [.step 0x0211 9] }
    (s.mode = .awaitingKey 15 ∧ s.nextEvent = .step 0x8000 9 ∧ (0x8000 : BitVec 16).getLsbD 15 = true ∧
      ∀ j < 15, (0x8000 : BitVec 16).getLsbD j = false) ∧
    (u.mode = .awaitingKey 0 ∧ u.nextEvent = .step 0x0211 9 ∧ (0x0211 : BitVec 16).getLsbD 0 = true ∧
      ∀ j < 0, (0x0211 : BitVec 16).getLsbD j = false) := by decide

theorem test_witness_HaltedStepChangesNothing :
    let s : State := { State.reset with mode := .halted .invalidAccess, events := [.step 0xFFFF 0x5A] }
    s.mode = .halted .invalidAccess ∧ s.nextEvent = .step 0xFFFF 0x5A := ⟨rfl, rfl⟩

theorem test_witness_Tick : ({ State.reset with mode := .awaitingKey 3, dt := 1, events := [.tick] } : State).nextEvent = .tick := rfl

/-- The largest image that fits, the empty one, and one byte too many. -/
theorem test_witness_Load :
    let s : Nat → State := fun n => { State.reset with events := [.load (List.replicate n 0x5A)] }
    ((s 3584).nextEvent = .load (List.replicate 3584 0x5A) ∧ (List.replicate 3584 (0x5A : Byte)).length ≤ 3584) ∧
    ((s 0).nextEvent = .load [] ∧ ([] : List Byte).length ≤ 3584) ∧
    ((s 3585).nextEvent = .load (List.replicate 3585 0x5A) ∧ 3584 < (List.replicate 3585 (0x5A : Byte)).length) := by
  refine ⟨⟨rfl, ?_⟩, ⟨rfl, ?_⟩, ⟨rfl, ?_⟩⟩
  · simp only [List.length_replicate]; decide
  · decide
  · simp only [List.length_replicate]; decide

theorem test_witness_ResetSetsEveryElement :
    ({ State.reset with mode := .halted .unknownOpcode, events := [.reset] } : State).nextEvent = .reset := rfl

theorem test_witness_ZeroedMemoryHaltsTheEngine :
    let s : State := { State.reset with pc := 0xFFE, events := [.step 0 0] }
    s.RunsStep 0 0 ∧ s.pc.toNat < 0xFFF ∧ s.mem.read s.pc.toNat = 0 ∧ s.mem.read (s.pc.toNat + 1) = 0 := by
  refine ⟨⟨rfl, rfl⟩, ?_, ?_, ?_⟩ <;> decide

/-- A state at the bounds of the invariant, with a listed byte of memory. -/
theorem test_witness_EveryStepKeepsTheInvariant :
    let s : State := { State.reset with
      mem := [(0x050, 0), (0xFFF, 1)], pc := 0x10FE, sp := 1, stack := State.reset.stack.set 0 0x1000#16, events := [.tick] }
    s.Inv ∧ ∃ t, step s = .next t := by
  exact ⟨⟨by decide, by decide, by decide⟩, _, rfl⟩

theorem test_witness_FaultsArePrecise :
    let s : State := { State.reset with pc := 0x1000, events := [.step 0 0] }
    (s.RunsStep 0 0 ∧ step s = .next (after s) ∧ (after s).mode = .halted .invalidFetch) ∧
    (let u := loaded 0xF033#16 (atI 0xFFE State.reset)
     u.RunsStep 0 0 ∧ step u = .next (after u) ∧ (after u).mode = .halted .invalidAccess) := by
  refine ⟨⟨⟨rfl, rfl⟩, rfl, ?_⟩, ⟨rfl, rfl⟩, rfl, ?_⟩ <;> decide

/-- Each condition of the table at its boundary, on both sides. -/
theorem test_witness_FaultCauses :
    (Instr.call 0).faultIn { State.reset with sp := 16 } = some .stackOverflow ∧
    (Instr.call 0).faultIn { State.reset with sp := 15 } = none ∧
    Instr.ret.faultIn State.reset = some .stackUnderflow ∧ Instr.ret.faultIn { State.reset with sp := 1 } = none ∧
    (Instr.ldFont 0).faultIn (regs [(0, 16)]) = some .invalidDigit ∧ (Instr.ldFont 0).faultIn (regs [(0, 15)]) = none ∧
    (Instr.skp 0).faultIn (regs [(0, 16)]) = some .invalidKey ∧ (Instr.sknp 0).faultIn (regs [(0, 15)]) = none ∧
    (Instr.ldBcd 0).faultIn (atI 0xFFE State.reset) = some .invalidAccess ∧
    (Instr.ldBcd 0).faultIn (atI 0xFFD State.reset) = none ∧
    (Instr.storeRegs 15).faultIn (atI 0xFF1 State.reset) = some .invalidAccess ∧
    (Instr.loadRegs 15).faultIn (atI 0xFF0 State.reset) = none ∧
    (Instr.drw 0 0 2).faultIn (atI 0xFFF State.reset) = some .invalidAccess ∧
    (Instr.drw 0 0 0).faultIn (atI 0xFFFF State.reset) = none := by decide

theorem test_witness_OnlyResetLeavesHalted :
    let s : List Event → State := fun es => { State.reset with mode := .halted .stackOverflow, events := es }
    ((s [.tick]).mode = .halted .stackOverflow ∧ (s [.tick]).nextEvent ≠ .reset) ∧
    ((s [.reset]).mode = .halted .stackOverflow ∧ (s [.reset]).nextEvent = .reset) ∧
    (s [.step 1 2]).nextEvent = .step 1 2 ∧
    ({ State.reset with mode := .awaitingKey 7 } : State).mode = .awaitingKey 7 := by decide

theorem test_witness_OnlyAKeyOrResetEndsTheKeyWait :
    let s : List Event → State := fun es => { State.reset with mode := .awaitingKey 7, events := es }
    State.reset.mode = .running ∧ (s []).mode = .awaitingKey 7 ∧ (s [.step 0 3]).nextEvent = .step 0 3 ∧
    (s [.tick]).nextEvent = .tick ∧ (s [.load [1]]).nextEvent = .load [1] ∧
    ((s [.step 0x8000 3]).nextEvent = .step 0x8000 3 ∧ (0x8000 : BitVec 16) ≠ 0) ∧ (s [.reset]).nextEvent = .reset := by decide

theorem test_witness_EventsChangeOnlyTheirElements :
    let s : Mode → State := fun m => { State.reset with mode := m, events := [.step 1 2] }
    ({ State.reset with events := [.load [1]] } : State).nextEvent = .load [1] ∧
    ({ State.reset with events := [.tick] } : State).nextEvent = .tick ∧
    ((s (.halted .invalidKey)).nextEvent = .step 1 2 ∧ (s (.halted .invalidKey)).mode = .halted .invalidKey) ∧
    ((s (.awaitingKey 2)).nextEvent = .step 1 2 ∧ (s (.awaitingKey 2)).mode = .awaitingKey 2) ∧
    ((s .running).nextEvent = .step 1 2 ∧ (s .running).mode = .running) := by decide

/-- `ADD V0,V1` with a carry changes VF; V0 is its destination, VF is not. -/
theorem test_witness_VfIsWritten :
    let s := regs [(0, 0xFF), (1, 1)]
    (Instr.addReg 0 1).faultIn s = none ∧ exec (.addReg 0 1) s = .next (flagThenResult s 0 1 0) ∧
    (flagThenResult s 0 1 0).getV vf ≠ s.getV vf ∧ (Instr.addReg 0 1).flagWriter = true ∧
    ¬(Instr.addReg 0 1).destination vf := by
  refine ⟨?_, rfl, ?_, ?_, ?_⟩
  · decide
  · decide
  · decide
  · show ¬vf = 0; decide

theorem test_witness_InputsAreReadOnly :
    ((∀ x nn, Instr.skp 3 ≠ .rnd x nn) ∧ State.reset.keys = 0) ∧
    ((∀ x, Instr.rnd 3 0xFF ≠ .skp x) ∧ (∀ x, Instr.rnd 3 0xFF ≠ .sknp x) ∧ State.reset.rnd = 0) := by
  refine ⟨⟨?_, rfl⟩, ?_, ?_, rfl⟩ <;> intros <;> exact Instr.noConfusion

/-- The frame at its grain: `CALL` may write the slot SP counts and no other, `RET` none, a `CALL` that faults only the mode. -/
theorem test_frame_of_the_stack :
    (Instr.call 0).mayWrite { State.reset with sp := 15 } (.slot 15) ∧
    ¬(Instr.call 0).mayWrite { State.reset with sp := 15 } (.slot 14) ∧
    ¬Instr.ret.mayWrite { State.reset with sp := 1 } (.slot 0) ∧
    ¬(Instr.call 0).mayWrite { State.reset with sp := 16 } .pc := by
  refine ⟨rfl, ?_, id, ?_⟩
  · show ¬((14 : Fin 16).val = 15); decide
  · show ¬(Part.pc = .mode); decide

/-- A list of events, and no event listed. -/
theorem test_witness_HostEventsHappenInOrderThenFreely :
    ({ State.reset with events := [.tick, .reset] } : State).events = .tick :: [.reset] ∧ State.reset.events = [] := ⟨rfl, rfl⟩

/-- Two instructions placed one after the other without a listed event take their inputs from different counts (log entry 5). -/
theorem test_placed_steps_have_fresh_inputs :
    let s := State.reset.withFetchWord 16 0xC0FF
    let t := (after s).withFetchWord 16 0xC1FF
    s.events = [.step (Config.freeKeys 0) (Config.freeRandom 0)] ∧
    t.events = [.step (Config.freeKeys 1) (Config.freeRandom 1)] := ⟨rfl, rfl⟩

/-- The host's placing passes over listed events that are no step, and adds a step where none is listed (log entry 5). -/
theorem test_withFetchWord_makes_the_next_event_a_step :
    (({ State.reset with events := [.tick, .step 1 2] } : State).withFetchWord 16 0x6A7F).events = [.step 1 2] ∧
    (after (State.reset.withFetchWord 16 0x6A7F)).getV 10 = 0x7F := by
  refine ⟨rfl, ?_⟩; decide

theorem test_witness_CallsNest :
    (({ State.reset with sp := 15 } : State).sp.val < 16) ∧
    (State.reset.mode = .running ∧ State.reset.sp.val = 0 ∧ (List.replicate 16 (0x200#12)).length = 16) := by decide

/-- VF is no register but VF: the clauses about the flag speak of every other destination. -/
theorem test_witness_flag_clauses : (0 : RegIx) ≠ vf ∧ (14 : RegIx) ≠ vf := by decide

theorem test_witness_CallPushes :
    ({ State.reset with sp := 15 } : State).sp.val = (15 : Fin 16).val ∧ State.reset.sp.val = (0 : Fin 16).val ∧
    ({ State.reset with sp := 16 } : State).sp.val = 16 := by decide

theorem test_witness_RetPops :
    ({ State.reset with sp := 16 } : State).sp.val = (15 : Fin 16).val + 1 ∧
    ({ State.reset with sp := 1 } : State).sp.val = (0 : Fin 16).val + 1 ∧ State.reset.sp.val = 0 := by decide

/-- Digits and keys 15 and 16. -/
theorem test_witness_digit_and_key_bounds :
    ((regs [(9, 15)]).getV 9).toNat ≤ 15 ∧ 15 < ((regs [(9, 16)]).getV 9).toNat := by decide

theorem test_witness_BcdStoresThreeDigits :
    dataBase (atI 0xFFD State.reset) + 2 ≤ 0xFFF ∧ 0xFFF < dataBase (atI 0xFFE State.reset) + 2 := by decide

/-- The highest range that fits and the lowest that does not, for all sixteen registers. -/
theorem test_witness_RegisterStoreAndLoad :
    dataBase (atI 0xFF0 State.reset) + (15 : RegIx).val ≤ 0xFFF ∧ 0xFFF < dataBase (atI 0xFF1 State.reset) + (15 : RegIx).val := by
  decide

theorem test_witness_MemoryPrimitives :
    (0 < 1 ∧ 4095 < 4096 + 1 - 1) ∧ ((0 = 0 ∨ 9999 + 0 - 1 ≤ 4095) ∧ (16 = 0 ∨ 4080 + 16 - 1 ≤ 4095)) ∧
    (0 < ([1, 2] : List Byte).length ∧ 4095 < 4095 + ([1, 2] : List Byte).length - 1) ∧
    (0 < ([1] : List Byte).length ∧ 4095 + ([1] : List Byte).length - 1 ≤ 4095) := by decide

/-- A store at 0x200 and a PC that finds it. -/
theorem test_witness_StoreIsSeenByTheNextFetch :
    let s := atI 0x200 (regs [(0, 0x12), (1, 0x34)])
    dataBase s + (1 : RegIx).val ≤ 0xFFF ∧ (1 : RegIx).val = (0 : RegIx).val + 1 ∧ (1 : RegIx) ≤ 1 ∧
    s.pc.toNat = dataBase s + (0 : RegIx).val ∧ dataBase s + 2 ≤ 0xFFF := by decide

theorem test_witness_CanonicalMemories :
    Memory.wf (Memory.write [] 0x200 1) ∧ Memory.wf [(0x200, 1)] ∧
    ∀ a, Memory.read (Memory.write [] 0x200 1) a = Memory.read [(0x200, 1)] a := by
  refine ⟨?_, ?_, fun _ => rfl⟩ <;> decide

/-- Fifteen rows up to the last byte, two rows past it, a covered pixel that is on, and a sprite with no set bit. -/
theorem test_witness_Draw :
    (15 < 16 ∧ dataBase (atI 0xFF1 State.reset) + 15 - 1 ≤ 0xFFF) ∧ (0 < 2 ∧ 0xFFF < dataBase (atI 0xFFF State.reset) + 2 - 1) ∧
    (SpriteCovers (sprite [0x80] (lit 0 0 State.reset)) 0 1 1 0 0 ∧
      Framebuffer.pixel (sprite [0x80] (lit 0 0 State.reset)).fb 0 0 = true) ∧
    (¬SpriteCovers (sprite [0x00] State.reset) 0 1 1 0 0 ∧
      ∀ r c, SpriteCovers (sprite [0x80] State.reset) 0 1 1 r c → Framebuffer.pixel (sprite [0x80] State.reset).fb r c = false) := by
  refine ⟨by decide, by decide, ⟨⟨0, by decide, 0, by decide, by decide, by decide, by decide⟩, by decide +kernel⟩, ?_, ?_⟩
  · rintro ⟨j, hj, k, hk, h, -⟩
    obtain rfl : j = 0 := by omega
    revert k; decide
  · intro r c _
    simp [Framebuffer.pixel, sprite, State.reset, Vector.get_eq_getElem]

/-- The state a draw leaves is one from which the second draw starts, with the same memory, I and place. -/
theorem test_witness_DrawingTwice :
    let s := sprite [0x80] State.reset
    1 < 16 ∧ (1 = 0 ∨ dataBase s + 1 - 1 ≤ 0xFFF) ∧ (after { s with events := [.step 0 0] }).i = s.i ∧
    ∃ t, exec (.drw 0 1 1) s = .next t ∧ t.mem = s.mem ∧ t.i = s.i ∧ spriteRow t 1 = spriteRow s 1 ∧
      spriteColumn t 0 = spriteColumn s 0 := by
  refine ⟨by decide, by decide, by decide, _, rfl, by decide, by decide, by decide, by decide⟩

/-- The last column and the last row from which a sprite stays on the screen. -/
theorem test_witness_EdgePoliciesAgree : 56 ≤ 56 ∧ 17 + (List.replicate 15 (0xFF : Byte)).length ≤ 32 := by decide

theorem test_witness_JumpToItselfChangesNothing :
    let s := loaded 0x1200#16 { State.reset with opcode := 0x1200#16 }
    s.RunsStep 0 0 ∧ s.pc.toNat < 0xFFF ∧ s.opcode.toNat = 0x1000 + s.pc.toNat ∧ fetch s = some s.opcode := by
  refine ⟨⟨rfl, rfl⟩, ?_, ?_, ?_⟩ <;> decide

end Sys2Proof.Tests
end

section
/-! PROOFS. The instruction fetch (20_memory.md R41, R45) and its fault (60_exceptions.md R182). -/

namespace Sys2Proof.Machine

/-- Below the last byte of memory the fetch answers the two bytes at PC, the lower address in the high byte. -/
theorem fetch_of_lt {s : State} (h : s.pc.toNat < 0xFFF) :
    fetch s = some (wordOfBytes (s.mem.read s.pc.toNat) (s.mem.read (s.pc.toNat + 1))) :=
  (fetch_eq_some s _).mpr ⟨Nat.succ_lt_succ h, rfl⟩

/-- From the last byte of memory on the fetch answers no word. -/
theorem fetch_of_ge {s : State} (h : 0xFFF ≤ s.pc.toNat) : fetch s = none :=
  (fetch_eq_none s).mpr (Nat.succ_le_succ h)

/-- The cycle without a word: the fault alone, with neither the latch nor the advance (60_exceptions.md R182). -/
theorem cycle_of_fetch_none {s : State} (h : fetch s = none) : cycle s = .next (s.raise .invalidFetch) := by
  simp only [cycle, h]

/-- Settles O9: the answers of `fetch` on either side of address 0xFFF, and the cycle's fault where there is none. -/
theorem fetchIsBigEndianAndFaultsOnlyBeyondMemory : Obligations.FetchIsBigEndianAndFaultsOnlyBeyondMemory := by
  refine ⟨fun s hpc => ⟨_, fetch_of_lt hpc, toNat_wordOfBytes _ _⟩, fun s keys rnd hrun hpc => ?_⟩
  have hnone : fetch (s.atStep keys rnd) = none := (fetch_atStep s keys rnd).trans (fetch_of_ge hpc)
  calc step s = cycle (s.atStep keys rnd) := step_of_runsStep hrun
    _ = .next { s.atStep keys rnd with mode := .halted .invalidFetch } := cycle_of_fetch_none hnone

end Sys2Proof.Machine
end

section
/-! PROOFS. Which bits of a word its instruction holds (30_encoding.md R69): a word is rebuilt from the selectors the decoder tested and
the fields it read, and only the two shifts leave a field, Y, unread. -/

namespace Sys2Proof

/-! ### A word is the form of its fields, once its fixed bits are known -/

theorem formNNN_of_fields {w : Word} {t : BitVec 4} (ht : fieldTop w = t.toNat) : formNNN t (fieldNNN w) = w := by
  obtain rfl : w.extractLsb' 12 4 = t := BitVec.eq_of_toNat_eq ht
  exact (eq_formNNN w).symm

theorem formXNN_of_top {w : Word} {t : BitVec 4} (ht : fieldTop w = t.toNat) : formXNN t (fieldX w) (fieldNN w) = w := by
  obtain rfl : w.extractLsb' 12 4 = t := BitVec.eq_of_toNat_eq ht
  exact (eq_formXNN w).symm

theorem formXNN_of_fields {w : Word} {t : BitVec 4} {nn : Byte} (ht : fieldTop w = t.toNat) (hnn : fieldNN w = nn) :
    formXNN t (fieldX w) nn = w :=
  hnn ▸ formXNN_of_top ht

theorem formXYN_of_fields {w : Word} {t n : BitVec 4} (ht : fieldTop w = t.toNat) (hn : fieldN w = n.toNat) :
    formXYN t (fieldX w) (fieldY w) n = w := by
  obtain rfl : w.extractLsb' 12 4 = t := BitVec.eq_of_toNat_eq ht
  obtain rfl : w.extractLsb' 0 4 = n := BitVec.eq_of_toNat_eq hn
  exact (eq_formXYN w).symm

/-! ### Each group of the decoder, undone by the encoder -/

theorem encode_of_decode0 {w : Word} {i : Instr} (h : decode0 w = some i) : encode i = w := by
  unfold decode0 at h
  split_ifs at h with hw hw <;> (cases h; exact hw.symm)

/-- Group 0x8 loses bits in its two shifts alone (30_encoding.md R69). -/
theorem encode_of_decode8 {w : Word} {i : Instr} (ht : fieldTop w = 0x8) (h : decode8 w = some i)
    (hshr : ∀ x, i ≠ .shr x) (hshl : ∀ x, i ≠ .shl x) : encode i = w := by
  unfold decode8 at h
  split at h <;> cases h
  case h_7 => exact absurd rfl (hshr _)
  case h_9 => exact absurd rfl (hshl _)
  all_goals exact formXYN_of_fields ht ‹fieldN w = _›

theorem encode_of_decodeE {w : Word} {i : Instr} (ht : fieldTop w = 0xE) (h : decodeE w = some i) : encode i = w := by
  unfold decodeE at h
  split_ifs at h with hnn hnn <;> (cases h; exact formXNN_of_fields ht hnn)

theorem encode_of_decodeF {w : Word} {i : Instr} (ht : fieldTop w = 0xF) (h : decodeF w = some i) : encode i = w := by
  unfold decodeF at h
  split_ifs at h with hnn hnn hnn hnn hnn hnn hnn hnn hnn <;> (cases h; exact formXNN_of_fields ht hnn)

/-- A word that decodes to no shift is the word the encoder writes (30_encoding.md R69). -/
theorem encode_of_decodeWord {w : Word} {i : Instr} (h : decodeWord w = some i)
    (hshr : ∀ x, i ≠ .shr x) (hshl : ∀ x, i ≠ .shl x) : encode i = w := by
  unfold decodeWord at h
  split at h
  case h_1 => exact encode_of_decode0 h
  case h_9 ht => exact encode_of_decode8 ht h hshr hshl
  case h_15 ht => exact encode_of_decodeE ht h
  case h_16 ht => exact encode_of_decodeF ht h
  case h_17 => cases h
  case h_6 ht | h_10 ht =>
    split_ifs at h with hn
    cases h; exact formXYN_of_fields ht hn
  case h_14 ht =>
    cases h; exact formXYN_of_fields ht (by simp [fieldN])
  case h_2 ht | h_3 ht | h_11 ht | h_12 ht =>
    cases h; exact formNNN_of_fields ht
  case h_4 ht | h_5 ht | h_7 ht | h_8 ht | h_13 ht =>
    cases h; exact formXNN_of_top ht

/-! ### The shifts do not read Y -/

theorem decodeWord_formXYN_8 (x y : RegIx) (n : BitVec 4) :
    decodeWord (formXYN 0x8#4 x y n) = decode8 (formXYN 0x8#4 x y n) := by
  simp [decodeWord]

theorem decodeWord_shr (x y : RegIx) : decodeWord (formXYN 0x8#4 x y 0x6#4) = some (.shr x) := by
  simp [decodeWord_formXYN_8, decode8]

theorem decodeWord_shl (x y : RegIx) : decodeWord (formXYN 0x8#4 x y 0xE#4) = some (.shl x) := by
  simp [decodeWord_formXYN_8, decode8]

/-- Settles O6: the shifts decode alike for every Y, and the encoder gives back the word of every other instruction. -/
theorem onlyShiftsHaveADontCareField : Obligations.OnlyShiftsHaveADontCareField :=
  ⟨fun x y => ⟨decodeWord_shr x y, decodeWord_shl x y⟩, fun _ _ => encode_of_decodeWord⟩

end Sys2Proof
end

section
/-! PROOFS. Jumps, skips, calls and returns (41_control_flow.md): the target's value, the two comparisons, what a push and a pop do to the
stack, and how calls nest. -/

namespace Sys2Proof

/-! ### Decoding -/

theorem decodeWord_jp (nnn : BitVec 12) : decodeWord (formNNN 0x1#4 nnn) = some (.jp nnn) := by simp [decodeWord]

theorem decodeWord_call (nnn : BitVec 12) : decodeWord (formNNN 0x2#4 nnn) = some (.call nnn) := by simp [decodeWord]

theorem decodeWord_jpV0 (nnn : BitVec 12) : decodeWord (formNNN 0xB#4 nnn) = some (.jpV0 nnn) := by simp [decodeWord]

theorem decodeWord_seImm (x : RegIx) (nn : Byte) : decodeWord (formXNN 0x3#4 x nn) = some (.seImm x nn) := by
  simp [decodeWord]

theorem decodeWord_sneImm (x : RegIx) (nn : Byte) : decodeWord (formXNN 0x4#4 x nn) = some (.sneImm x nn) := by
  simp [decodeWord]

theorem decodeWord_seReg (x y : RegIx) : decodeWord (formXYN 0x5#4 x y 0x0#4) = some (.seReg x y) := by
  simp [decodeWord]

theorem decodeWord_sneReg (x y : RegIx) : decodeWord (formXYN 0x9#4 x y 0x0#4) = some (.sneReg x y) := by
  simp [decodeWord]

end Sys2Proof

namespace Sys2Proof.Machine

/-! ### Jumps -/

theorem toNat_zextAddr (nnn : BitVec 12) : (zextAddr nnn).toNat = nnn.toNat :=
  BitVec.toNat_setWidth_of_le (by decide)

/-- The largest target of `JP V0,NNN` is 0x10FE, so the 16-bit sum loses nothing (41_control_flow.md R108). -/
theorem toNat_zextAddr_add_zextByte (nnn : BitVec 12) (b : Byte) :
    (zextAddr nnn + zextByte b).toNat = nnn.toNat + b.toNat := by
  have hb : (zextByte b).toNat = b.toNat := BitVec.toNat_setWidth_of_le (by decide)
  have := nnn.isLt
  have := b.isLt
  rw [BitVec.toNat_add, toNat_zextAddr, hb]
  omega

/-- Settles O38: each jump is one `State.jump`, and its target fits PC unreduced. -/
theorem jumpsSetThePc : Obligations.JumpsSetThePc := fun nnn s =>
  ⟨decodeWord_jp nnn, decodeWord_jpV0 nnn,
    ⟨_, rfl, toNat_zextAddr nnn, changesOnly_jump s _⟩,
    ⟨_, rfl, toNat_zextAddr_add_zextByte nnn _, changesOnly_jump s _⟩⟩

/-! ### Skips -/

/-- The skip of the two `SE`. -/
theorem skipIf_beq (s : State) (a b : Byte) :
    s.skipIf (a == b) = { s with pc := if a = b then s.pc + 2 else s.pc } := by
  simp only [State.skipIf, beq_iff_eq]

/-- The skip of the two `SNE`. -/
theorem skipIf_bne (s : State) (a b : Byte) :
    s.skipIf (a != b) = { s with pc := if a = b then s.pc else s.pc + 2 } := by
  simp only [State.skipIf, bne_iff_ne, ite_not]

/-- Settles O37: each skip is `State.skipIf` on the comparison of its two bytes. -/
theorem skipsCompareBytes : Obligations.SkipsCompareBytes := fun x y nn s =>
  ⟨decodeWord_seImm x nn, decodeWord_sneImm x nn, decodeWord_seReg x y, decodeWord_sneReg x y,
    congrArg _ (skipIf_beq s _ _), congrArg _ (skipIf_bne s _ _),
    congrArg _ (skipIf_beq s _ _), congrArg _ (skipIf_bne s _ _)⟩

/-! ### Push and pop -/

/-- A push below the limit fills slot SP and raises SP, and that is all. -/
theorem pushReturn_of_room {s : State} {k : Fin 16} (a : Word) (hk : s.sp.val = k.val) :
    ∃ t, pushReturn a s = some t ∧ t.stack.get k = a ∧ t.sp.val = k.val + 1 ∧
      ChangesOnly (fun p => p = .slot k ∨ p = .sp) s t := by
  refine ⟨_, (pushReturn_eq_some a s _).mpr ⟨hk ▸ k.isLt, rfl⟩, ?_, congrArg (· + 1) hk, fun p hp => ?_⟩
  · simp [Vector.get_eq_getElem, hk]
  · cases p with
    | slot j =>
      have hjk : s.sp.val ≠ j.val := fun h => hp (.inl (congrArg Part.slot (Fin.ext (h.symm.trans hk))))
      simp [Part.same, Vector.get_eq_getElem, Vector.getElem_set_ne _ _ hjk]
    | sp => exact absurd (.inr rfl) hp
    | _ => rfl

/-- A pop above the bottom answers the slot below SP and lowers SP; the slot keeps its value. -/
theorem popReturn_of_entry {s : State} {k : Fin 16} (hk : s.sp.val = k.val + 1) :
    ∃ t, popReturn s = some (s.stack.get k, t) ∧ t.sp.val = k.val ∧ ChangesOnly (fun p => p = .sp) s t := by
  have hpred : s.sp.val - 1 = k.val := by omega
  refine ⟨_, (popReturn_eq_some s _ _).mpr ⟨by omega, ?_, rfl⟩, hpred, fun p hp => ?_⟩
  · simp [Vector.get_eq_getElem, hpred]
  · cases p with
    | sp => exact absurd rfl hp
    | _ => rfl

/-! ### Calls and returns -/

theorem exec_call_of_room (nnn : BitVec 12) {s : State} {k : Fin 16} (hk : s.sp.val = k.val) :
    ∃ t, exec (.call nnn) s = .next t ∧ t.stack.get k = s.pc ∧ t.sp.val = k.val + 1 ∧ t.pc.toNat = nnn.toNat ∧
      ChangesOnly (fun p => p = .slot k ∨ p = .sp ∨ p = .pc) s t := by
  obtain ⟨t, hpush, hslot, hsp, hframe⟩ := pushReturn_of_room s.pc hk
  refine ⟨t.jump (zextAddr nnn), ?_, hslot, hsp, toNat_zextAddr nnn, ?_⟩
  · show execCall nnn s = _
    rw [execCall, hpush, Option.map_some, orRaise_some]
  · exact (hframe.mono fun _ => Or.imp_right .inl).trans ((changesOnly_jump t _).mono fun _ => .inr ∘ .inr)

theorem exec_call_of_full (nnn : BitVec 12) {s : State} (h : s.sp.val = 16) :
    exec (.call nnn) s = .next (s.raise .stackOverflow) := by
  show execCall nnn s = _
  rw [execCall, (pushReturn_eq_none s.pc s).mpr h, Option.map_none, orRaise_none]

theorem exec_ret_of_entry {s : State} {k : Fin 16} (hk : s.sp.val = k.val + 1) :
    ∃ t, exec .ret s = .next t ∧ t.pc = s.stack.get k ∧ t.sp.val = k.val ∧
      ChangesOnly (fun p => p = .sp ∨ p = .pc) s t := by
  obtain ⟨t, hpop, hsp, hframe⟩ := popReturn_of_entry hk
  refine ⟨t.jump (s.stack.get k), ?_, rfl, hsp, ?_⟩
  · show execRet s = _
    rw [execRet, hpop, Option.map_some, orRaise_some]
  · exact (hframe.mono fun _ => .inl).trans ((changesOnly_jump t _).mono fun _ => .inr)

theorem exec_ret_of_empty {s : State} (h : s.sp.val = 0) : exec .ret s = .next (s.raise .stackUnderflow) := by
  show execRet s = _
  rw [execRet, (popReturn_eq_none s).mpr h, Option.map_none, orRaise_none]

/-- Settles O39: a call is a push of PC, then a jump; the push has room below 16 only. -/
theorem callPushesThePostAdvancePc : Obligations.CallPushesThePostAdvancePc := fun nnn _ =>
  ⟨decodeWord_call nnn, fun _ => exec_call_of_room nnn, exec_call_of_full nnn⟩

/-- Settles O40: a return is a pop, then a jump to what it answers; the pop needs an entry. -/
theorem retPopsTheReturnAddress : Obligations.RetPopsTheReturnAddress := fun _ =>
  ⟨by decide, fun _ => exec_ret_of_entry, exec_ret_of_empty⟩

/-! ### Nesting (41_control_flow.md R110) -/

/-- A return undoes a call on PC and SP, whatever else happened in between, if stack and SP are as the call left them. -/
theorem exec_ret_after_call (nnn : BitVec 12) {s : State} (h : s.sp.val < 16) :
    ∃ t, exec (.call nnn) s = .next t ∧ ∀ u : State, u.stack = t.stack → u.sp = t.sp →
      ∃ r, exec .ret u = .next r ∧ r.pc = s.pc ∧ r.sp = s.sp := by
  obtain ⟨t, hcall, hslot, hsp, -⟩ := exec_call_of_room (k := ⟨s.sp.val, h⟩) nnn rfl
  refine ⟨t, hcall, fun u hstack husp => ?_⟩
  obtain ⟨r, hret, hpc, hrsp, -⟩ := exec_ret_of_entry (s := u) (husp ▸ hsp)
  exact ⟨r, hret, by rw [hpc, hstack, hslot], Fin.ext hrsp⟩

theorem callChain_of_call {nnn : BitVec 12} {s t : State} (rest : List (BitVec 12)) (h : exec (.call nnn) s = .next t) :
    callChain (nnn :: rest) s = callChain rest t := by
  simp only [callChain, h]

/-- Calls in a row that the stack has room for all complete, each raising SP by 1. -/
theorem callChain_of_room (targets : List (BitVec 12)) (s : State) (h : s.sp.val + targets.length ≤ 16) :
    ∃ t, callChain targets s = .next t ∧ t.mode = s.mode ∧ t.sp.val = s.sp.val + targets.length := by
  induction targets generalizing s with
  | nil => exact ⟨s, rfl, rfl, rfl⟩
  | cons nnn rest ih =>
    rw [List.length_cons] at h ⊢
    obtain ⟨u, hcall, -, husp, -, hframe⟩ := exec_call_of_room (k := ⟨s.sp.val, by omega⟩) nnn rfl
    replace husp : u.sp.val = s.sp.val + 1 := husp
    have humode : u.mode = s.mode := hframe .mode (by simp)
    obtain ⟨t, hrest, hmode, hsp⟩ := ih u (by omega)
    exact ⟨t, (callChain_of_call rest hcall).trans hrest, hmode.trans humode, by omega⟩

/-- Settles O29: a return undoes a call, sixteen calls fill an empty stack, and the faults are those of R103 and R101. -/
theorem callsNestSixteenDeepAndReturn : Obligations.CallsNestSixteenDeepAndReturn := by
  refine ⟨fun nnn s => exec_ret_after_call nnn, fun targets s hrun hsp hlen => ?_, fun s => exec_ret_of_empty⟩
  obtain ⟨t, hchain, hmode, htsp⟩ := callChain_of_room targets s (by omega)
  have hfull : t.sp.val = 16 := by omega
  exact ⟨t, hchain, hmode.trans hrun, hfull, fun nnn => exec_call_of_full nnn hfull⟩

end Sys2Proof.Machine
end

section
/-! PROOFS. Load, arithmetic, logic, shift and random instructions (42_alu.md): results and flags as numbers, and the two shapes every one of
them has, a single register write, or a flag write followed by the result's. -/

namespace Sys2Proof

/-! ### Decoding -/

theorem decodeWord_ldImm (x : RegIx) (nn : Byte) : decodeWord (formXNN 0x6#4 x nn) = some (.ldImm x nn) := by
  simp [decodeWord]

theorem decodeWord_addImm (x : RegIx) (nn : Byte) : decodeWord (formXNN 0x7#4 x nn) = some (.addImm x nn) := by
  simp [decodeWord]

theorem decodeWord_rnd (x : RegIx) (nn : Byte) : decodeWord (formXNN 0xC#4 x nn) = some (.rnd x nn) := by
  simp [decodeWord]

theorem decodeWord_ldReg (x y : RegIx) : decodeWord (formXYN 0x8#4 x y 0x0#4) = some (.ldReg x y) := by
  simp [decodeWord_formXYN_8, decode8]

theorem decodeWord_orReg (x y : RegIx) : decodeWord (formXYN 0x8#4 x y 0x1#4) = some (.orReg x y) := by
  simp [decodeWord_formXYN_8, decode8]

theorem decodeWord_andReg (x y : RegIx) : decodeWord (formXYN 0x8#4 x y 0x2#4) = some (.andReg x y) := by
  simp [decodeWord_formXYN_8, decode8]

theorem decodeWord_xorReg (x y : RegIx) : decodeWord (formXYN 0x8#4 x y 0x3#4) = some (.xorReg x y) := by
  simp [decodeWord_formXYN_8, decode8]

theorem decodeWord_addReg (x y : RegIx) : decodeWord (formXYN 0x8#4 x y 0x4#4) = some (.addReg x y) := by
  simp [decodeWord_formXYN_8, decode8]

theorem decodeWord_subReg (x y : RegIx) : decodeWord (formXYN 0x8#4 x y 0x5#4) = some (.subReg x y) := by
  simp [decodeWord_formXYN_8, decode8]

theorem decodeWord_subnReg (x y : RegIx) : decodeWord (formXYN 0x8#4 x y 0x7#4) = some (.subnReg x y) := by
  simp [decodeWord_formXYN_8, decode8]

end Sys2Proof

namespace Sys2Proof.Machine

/-! ### Flags and results as numbers -/

theorem toNat_flagOf_decide (p : Prop) [Decidable p] : (flagOf (decide p)).toNat = if p then 1 else 0 := by
  by_cases h : p <;> simp [toNat_flagOf, h]

theorem toNat_carryFlag (a b : Byte) : (carryFlag a b).toNat = if 255 < a.toNat + b.toNat then 1 else 0 :=
  toNat_flagOf_decide _

theorem toNat_notBorrowFlag (a b : Byte) : (notBorrowFlag a b).toNat = if b.toNat ≤ a.toNat then 1 else 0 :=
  toNat_flagOf_decide _

theorem toNat_byteSub (a b : Byte) : (a - b).toNat = (256 + a.toNat - b.toNat) % 256 := by
  have := b.isLt
  rw [BitVec.toNat_sub]
  omega

theorem toNat_shiftRightOne (a : Byte) : (a >>> 1).toNat = a.toNat / 2 := by
  simp [BitVec.toNat_ushiftRight, Nat.shiftRight_eq_div_pow]

theorem toNat_shiftLeftOne (a : Byte) : (a <<< 1).toNat = 2 * a.toNat % 256 := by
  simp [BitVec.toNat_shiftLeft, Nat.shiftLeft_eq, Nat.mul_comm]

/-! ### The two shapes of an ALU instruction -/

/-- An instruction that is one register write reads back as the value written, and VF is no side effect. -/
theorem exec_of_setV {i : Instr} {s : State} {x : RegIx} {b : Byte} (h : exec i s = .next (s.setV x b)) :
    ∃ t, exec i s = .next t ∧ t.getV x = b ∧ ChangesOnly (fun p => p = .reg x) s t :=
  ⟨_, h, State.getV_setV_same s x b, changesOnly_setV s x b⟩

/-- An instruction that writes a flag, then its result: the result is always read back, the flag where the result did not go to VF
(40_cycle.md R86). -/
theorem exec_of_flagThenResult {i : Instr} {s : State} {x : RegIx} {flag result : Byte} {f r : Nat}
    (h : exec i s = .next (flagThenResult s x flag result)) (hr : result.toNat = r) (hf : flag.toNat = f) :
    ∃ t, exec i s = .next t ∧ (t.getV x).toNat = r ∧ (x ≠ vf → (t.getV vf).toNat = f) ∧
      ChangesOnly (fun p => p = .reg x ∨ p = .reg vf) s t := by
  refine ⟨_, h, ?_, fun hx => ?_, changesOnly_flagThenResult s x flag result⟩
  · rw [getV_flagThenResult, if_pos rfl, hr]
  · rw [getV_flagThenResult, if_neg hx.symm, if_pos rfl, hf]

/-! ### Sums and differences -/

/-- Settles O32: the sum is the byte addition, the flag its carry. -/
theorem addSetsTheCarry : Obligations.AddSetsTheCarry := fun x y _ =>
  ⟨decodeWord_addReg x y, exec_of_flagThenResult rfl (BitVec.toNat_add _ _) (toNat_carryFlag _ _)⟩

/-- Settles O33: the two subtractions are one byte subtraction with the operands exchanged. -/
theorem subtractionsSetNotBorrow : Obligations.SubtractionsSetNotBorrow := fun x y _ =>
  ⟨decodeWord_subReg x y, decodeWord_subnReg x y,
    exec_of_flagThenResult rfl (toNat_byteSub _ _) (toNat_notBorrowFlag _ _),
    exec_of_flagThenResult rfl (toNat_byteSub _ _) (toNat_notBorrowFlag _ _)⟩

/-! ### Shifts -/

theorem exec_shr (x : RegIx) (s : State) :
    ∃ t, exec (.shr x) s = .next t ∧ (t.getV x).toNat = (s.getV x).toNat / 2 ∧
      (x ≠ vf → (t.getV vf).toNat = (s.getV x).toNat % 2) ∧ ChangesOnly (fun p => p = .reg x ∨ p = .reg vf) s t :=
  exec_of_flagThenResult rfl (toNat_shiftRightOne _) (toNat_lowBitFlag _)

theorem exec_shl (x : RegIx) (s : State) :
    ∃ t, exec (.shl x) s = .next t ∧ (t.getV x).toNat = 2 * (s.getV x).toNat % 256 ∧
      (x ≠ vf → (t.getV vf).toNat = (s.getV x).toNat / 128) ∧ ChangesOnly (fun p => p = .reg x ∨ p = .reg vf) s t :=
  exec_of_flagThenResult rfl (toNat_shiftLeftOne _) (toNat_highBitFlag _)

/-- Settles O34: the decoder reads no Y, and each shift halves or doubles Vx. -/
theorem shiftsSetTheBitShiftedOut : Obligations.ShiftsSetTheBitShiftedOut := fun x y s =>
  ⟨decodeWord_shr x y, decodeWord_shl x y, exec_shr x s, exec_shl x s⟩

/-- Settles O35: halving leaves a value below 128, so doubling it loses nothing and shifts a 0 out. -/
theorem shiftRightThenLeftClearsTheLowBit : Obligations.ShiftRightThenLeftClearsTheLowBit := by
  intro x s hx
  obtain ⟨t, ht, hhalf, hlow, -⟩ := exec_shr x s
  obtain ⟨u, hu, hdouble, hhigh, -⟩ := exec_shl x t
  obtain ⟨w, hw, -, hbit7, -⟩ := exec_shl x s
  have hsmall : (t.getV x).toNat < 128 := by
    have := (s.getV x).isLt
    omega
  have hzero : u.getV vf = 0 := BitVec.eq_of_toNat_eq ((hhigh hx).trans (Nat.div_eq_of_lt hsmall))
  exact ⟨⟨t, u, ht, hlow hx, hu, by omega, hzero⟩, w, hw, hbit7 hx⟩

/-! ### One register, no flag -/

/-- Settles O30: each is one write of Vx. -/
theorem immediateLoadAndAdd : Obligations.ImmediateLoadAndAdd := by
  intro x nn s
  obtain ⟨t, ht, hsum, hframe⟩ := exec_of_setV (i := .addImm x nn) (s := s) rfl
  refine ⟨decodeWord_ldImm x nn, decodeWord_addImm x nn, exec_of_setV rfl, t, ht, ?_, hframe⟩
  rw [hsum, BitVec.toNat_add]

/-- Settles O31: each is one write of Vx, with both operands read from the state before it. -/
theorem copyAndLogicWriteOnlyTheirDestination : Obligations.CopyAndLogicWriteOnlyTheirDestination := fun x y _ =>
  ⟨decodeWord_ldReg x y, decodeWord_orReg x y, decodeWord_andReg x y, decodeWord_xorReg x y,
    exec_of_setV rfl, exec_of_setV rfl, exec_of_setV rfl, exec_of_setV rfl⟩

/-- Settles O36: one write of Vx, with the value at the random port under the mask. -/
theorem randomByteUnderMask : Obligations.RandomByteUnderMask := fun x nn _ =>
  ⟨decodeWord_rnd x nn, exec_of_setV rfl⟩

end Sys2Proof.Machine
end

section
/-! PROOFS. Index register, font address, and the stores and loads at I (43_index_memory.md): what a checked store answers on either side
of the memory's end serves both storing instructions, and the load is the same for a checked read. -/

namespace Sys2Proof

/-! ### Decoding -/

theorem decodeWord_ldI (nnn : BitVec 12) : decodeWord (formNNN 0xA#4 nnn) = some (.ldI nnn) := by simp [decodeWord]

theorem decodeWord_formXNN_F (x : RegIx) (nn : Byte) : decodeWord (formXNN 0xF#4 x nn) = decodeF (formXNN 0xF#4 x nn) := by
  simp [decodeWord]

theorem decodeWord_addI (x : RegIx) : decodeWord (formXNN 0xF#4 x 0x1E#8) = some (.addI x) := by
  simp [decodeWord_formXNN_F, decodeF]

theorem decodeWord_ldFont (x : RegIx) : decodeWord (formXNN 0xF#4 x 0x29#8) = some (.ldFont x) := by
  simp [decodeWord_formXNN_F, decodeF]

theorem decodeWord_ldBcd (x : RegIx) : decodeWord (formXNN 0xF#4 x 0x33#8) = some (.ldBcd x) := by
  simp [decodeWord_formXNN_F, decodeF]

theorem decodeWord_storeRegs (x : RegIx) : decodeWord (formXNN 0xF#4 x 0x55#8) = some (.storeRegs x) := by
  simp [decodeWord_formXNN_F, decodeF]

theorem decodeWord_loadRegs (x : RegIx) : decodeWord (formXNN 0xF#4 x 0x65#8) = some (.loadRegs x) := by
  simp [decodeWord_formXNN_F, decodeF]

end Sys2Proof

namespace Sys2Proof.Machine

/-! ### The index register -/

theorem toNat_add_zextByte (a : Word) (b : Byte) : (a + zextByte b).toNat = (a.toNat + b.toNat) % 65536 := by
  have hb : (zextByte b).toNat = b.toNat := BitVec.toNat_setWidth_of_le (by decide)
  rw [BitVec.toNat_add, hb]

/-- Settles O41: each is one write of I. -/
theorem indexLoadAndAdd : Obligations.IndexLoadAndAdd := fun nnn x s =>
  ⟨decodeWord_ldI nnn, decodeWord_addI x,
    ⟨_, rfl, toNat_zextAddr nnn, changesOnly_index s _⟩,
    ⟨_, rfl, toNat_add_zextByte s.i _, changesOnly_index s _⟩⟩

theorem toNat_glyphAddress {d : Nat} (h : d ≤ 15) : (glyphAddress d).toNat = 0x050 + 5 * d :=
  Nat.mod_eq_of_lt (show 0x050 + 5 * d < 2 ^ 16 by omega)

theorem exec_ldFont_of_digit {x : RegIx} {s : State} (h : (s.getV x).toNat ≤ 15) :
    exec (.ldFont x) s = .next { s with i := glyphAddress (s.getV x).toNat } := by
  show execLdFont x s = _
  rw [execLdFont, if_neg (Nat.not_lt.mpr h), orRaise_some]

theorem exec_ldFont_of_no_digit {x : RegIx} {s : State} (h : 15 < (s.getV x).toNat) :
    exec (.ldFont x) s = .next (s.raise .invalidDigit) := by
  show execLdFont x s = _
  rw [execLdFont, if_pos h, orRaise_none]

/-- Settles O42: the test of the whole byte decides between one write of I and the fault. -/
theorem fontAddressOfADigit : Obligations.FontAddressOfADigit := fun x s =>
  ⟨decodeWord_ldFont x,
    fun h => ⟨_, exec_ldFont_of_digit h, toNat_glyphAddress h, changesOnly_index s _⟩,
    exec_ldFont_of_no_digit⟩

/-! ### Stores at I -/

/-- A store inside the array is read back byte by byte and changes nothing else (20_memory.md R47). -/
theorem memWrite_of_fits {a : Nat} {bytes : List Byte} (s : State) (h : a + bytes.length ≤ 0x1000) :
    ∃ t, memWrite a bytes s = some t ∧ (∀ j (hj : j < bytes.length), t.mem.read (a + j) = bytes[j]) ∧
      ChangesOnly (fun p => ∃ j < bytes.length, p = .byte (a + j)) s t := by
  refine ⟨_, (memWrite_eq_some a bytes s _).mpr ⟨h, rfl⟩, fun j hj => ?_, changesOnly_writeList s a bytes⟩
  have hin : a ≤ a + j ∧ a + j < a + bytes.length := by omega
  simp only [Memory.read_writeList, dif_pos hin, Nat.add_sub_cancel_left]

section Store

variable {i : Instr} {s : State} {bytes : List Byte}
  (hexec : exec i s = orRaise s .invalidAccess (memWrite (dataBase s) bytes s))
include hexec

/-- An instruction that is one store at I, where the store fits. -/
theorem exec_of_memWrite_fits (h : dataBase s + bytes.length ≤ 0x1000) :
    ∃ t, exec i s = .next t ∧ (∀ j (hj : j < bytes.length), t.mem.read (dataBase s + j) = bytes[j]) ∧
      ChangesOnly (fun p => ∃ j < bytes.length, p = .byte (dataBase s + j)) s t := by
  obtain ⟨t, hwrite, hread, hframe⟩ := memWrite_of_fits s h
  exact ⟨t, by rw [hexec, hwrite, orRaise_some], hread, hframe⟩

/-- An instruction that is one store at I, where the store passes the end. -/
theorem exec_of_memWrite_overrun (h : 0x1000 < dataBase s + bytes.length) : exec i s = .next (s.raise .invalidAccess) := by
  rw [hexec, (memWrite_eq_none _ _ _).mpr h, orRaise_none]

end Store

/-- Each decimal digit fits the byte that stores it. -/
theorem toNat_bcdDigits (b : Byte) :
    (bcdDigits b)[0].toNat = b.toNat / 100 ∧ (bcdDigits b)[1].toNat = b.toNat / 10 % 10 ∧
      (bcdDigits b)[2].toNat = b.toNat % 10 := by
  have := b.isLt
  refine ⟨Nat.mod_eq_of_lt ?_, Nat.mod_eq_of_lt ?_, Nat.mod_eq_of_lt ?_⟩ <;> omega

/-- Settles O43: `LD B,Vx` is one store of three bytes, the digits. -/
theorem bcdStoresThreeDigits : Obligations.BcdStoresThreeDigits := by
  intro x s
  have hexec : exec (.ldBcd x) s = orRaise s .invalidAccess (memWrite (dataBase s) (bcdDigits (s.getV x)) s) := rfl
  refine ⟨decodeWord_ldBcd x, fun h => ?_, fun h => exec_of_memWrite_overrun hexec (Nat.succ_lt_succ h)⟩
  obtain ⟨t, ht, hread, hframe⟩ := exec_of_memWrite_fits hexec (Nat.succ_le_succ h)
  obtain ⟨hhundreds, htens, hunits⟩ := toNat_bcdDigits (s.getV x)
  exact ⟨t, ht, hhundreds ▸ congrArg BitVec.toNat (hread 0 (by simp)),
    htens ▸ congrArg BitVec.toNat (hread 1 (by simp)), hunits ▸ congrArg BitVec.toNat (hread 2 (by simp)), hframe⟩

/-- Settles O44: `LD [I],Vx` is one store of the registers up to Vx. -/
theorem registerStoreWritesVZeroToVx : Obligations.RegisterStoreWritesVZeroToVx := by
  intro x s
  have hlen : (regsUpTo s x).length = x.val + 1 := length_regsUpTo s x
  have hexec : exec (.storeRegs x) s = orRaise s .invalidAccess (memWrite (dataBase s) (regsUpTo s x) s) := rfl
  refine ⟨decodeWord_storeRegs x, fun h => ?_, fun h => exec_of_memWrite_overrun hexec (by omega)⟩
  obtain ⟨t, ht, hread, hframe⟩ := exec_of_memWrite_fits hexec (by omega)
  refine ⟨t, ht, fun j hj => ?_, hframe.mono ?_⟩
  · rw [hread j.val (hlen ▸ Nat.lt_succ_of_le hj), getElem_regsUpTo]
  · rintro p ⟨j, hj, rfl⟩
    exact ⟨⟨j, by omega⟩, Nat.le_of_lt_succ (hlen ▸ hj), rfl⟩

/-! ### The load from I -/

theorem exec_loadRegs_of_fits {x : RegIx} {s : State} (h : dataBase s + x.val ≤ 0xFFF) :
    exec (.loadRegs x) s = .next (s.setVs 0 (s.mem.bytes (dataBase s) (x.val + 1))) := by
  show execLoadRegs x s = _
  rw [execLoadRegs, (memRead_eq_some _ _ _ _).mpr ⟨.inr (Nat.succ_le_succ h), rfl⟩, Option.map_some, orRaise_some]

theorem exec_loadRegs_of_overrun {x : RegIx} {s : State} (h : 0xFFF < dataBase s + x.val) :
    exec (.loadRegs x) s = .next (s.raise .invalidAccess) := by
  show execLoadRegs x s = _
  rw [execLoadRegs, (memRead_eq_none _ _ _).mpr ⟨x.val.succ_pos, Nat.succ_lt_succ h⟩, Option.map_none, orRaise_none]

/-- Consecutive bytes loaded into the registers from V0 on. -/
theorem getV_setVs_bytes (s : State) (m : Memory) (a n : Nat) {j : RegIx} (h : j.val < n) :
    (s.setVs 0 (m.bytes a n)).getV j = m.read (a + j.val) := by
  rw [State.getV_setVs, dif_pos (by simpa using h), Memory.getElem_bytes, Nat.sub_zero]

/-- Settles O45: the registers up to Vx receive one checked read, and no other part changes. -/
theorem registerLoadReadsVZeroToVx : Obligations.RegisterLoadReadsVZeroToVx := by
  refine fun x s => ⟨decodeWord_loadRegs x, fun h => ?_, exec_loadRegs_of_overrun⟩
  refine ⟨_, exec_loadRegs_of_fits h, fun j hj => getV_setVs_bytes s s.mem _ _ (Nat.lt_succ_of_le hj),
    (changesOnly_setVs s _).mono ?_⟩
  rintro p ⟨j, hj, rfl⟩
  rw [Memory.length_bytes] at hj
  exact ⟨j, Nat.le_of_lt_succ hj, rfl⟩

end Sys2Proof.Machine
end

section
/-! PROOFS. The display instructions (44_display.md): a draw is one XOR of the pixels its sprite covers, and an XOR with the same pixels
twice is none. -/

namespace Sys2Proof.Machine

/-- Settles O49: the framebuffer is replaced by the clear one, and that is all. -/
theorem clearScreenTurnsEveryPixelOff : Obligations.ClearScreenTurnsEveryPixelOff := fun s =>
  ⟨by decide, _, rfl, Framebuffer.pixel_clear, changesOnly_fb s _⟩

/-! ### The XOR draw on a clear screen, and done twice -/

/-- On a screen with every pixel off a draw collides with nothing. -/
theorem xorDraw_hit_of_off {fb : Framebuffer} {pixels : List (Fin 32 × Fin 64)} (hn : pixels.Nodup)
    (hoff : ∀ r c, Framebuffer.pixel fb r c = false) : (xorDraw fb pixels).2 = false := by
  rw [(xorDraw_spec fb pixels hn).2, List.any_eq_false]
  intro p _
  simp [hoff]

/-- The second of two equal draws undoes the first: each pixel is toggled twice or not at all. -/
theorem xorDraw_xorDraw (fb : Framebuffer) {pixels : List (Fin 32 × Fin 64)} (hn : pixels.Nodup) :
    (xorDraw (xorDraw fb pixels).1 pixels).1 = fb := by
  refine Framebuffer.ext_pixel fun r c => ?_
  rw [(xorDraw_spec _ pixels hn).1, (xorDraw_spec fb pixels hn).1, Bool.xor_assoc, Bool.xor_self, Bool.xor_false]

/-- From a screen with every pixel off, the second of two equal draws finds every pixel it toggles on, so it collides as soon as there
is one. -/
theorem xorDraw_xorDraw_hit_of_off {fb : Framebuffer} {pixels : List (Fin 32 × Fin 64)} (hn : pixels.Nodup)
    (hoff : ∀ r c, Framebuffer.pixel fb r c = false) :
    (xorDraw (xorDraw fb pixels).1 pixels).2 = true ↔ ∃ r c, (r, c) ∈ pixels := by
  have hon : ∀ r c, Framebuffer.pixel (xorDraw fb pixels).1 r c = decide ((r, c) ∈ pixels) := fun r c => by
    rw [(xorDraw_spec fb pixels hn).1, hoff, Bool.false_xor]
  simp [(xorDraw_spec _ pixels hn).2, hon]

/-! ### The pixels of a draw -/

/-- The pixels `DRW Vx,Vy,N` toggles (44_display.md R162). -/
def drawnPixels (s : State) (x y : RegIx) (n : Nat) : List (Fin 32 × Fin 64) :=
  spritePixels hardware.edgePolicy (spriteRow s y) (spriteColumn s x) (s.mem.bytes (dataBase s) n)

theorem mem_drawnPixels (s : State) (x y : RegIx) (n : Nat) (r : Fin 32) (c : Fin 64) :
    (r, c) ∈ drawnPixels s x y n ↔ SpriteCovers s x y n r c :=
  mem_spritePixels_wrap s x y n r c

/-- A sprite has at most 15 rows, so no wrap brings two of its pixels together. -/
theorem nodup_drawnPixels (s : State) (x y : RegIx) {n : Nat} (h : n < 16) : (drawnPixels s x y n).Nodup :=
  nodup_spritePixels _ _ _ _ (by rw [Memory.length_bytes]; omega)

theorem drawnPixels_congr {s u : State} {x y : RegIx} (n : Nat) (hmem : u.mem = s.mem) (hi : u.i = s.i)
    (hrow : spriteRow u y = spriteRow s y) (hcol : spriteColumn u x = spriteColumn s x) :
    drawnPixels u x y n = drawnPixels s x y n := by
  simp only [drawnPixels, dataBase, hmem, hi, hrow, hcol]

theorem exists_getLsbD_of_ne_zero {b : Byte} (h : b ≠ 0) : ∃ k < 8, b.getLsbD (7 - k) = true := by
  by_contra hall
  push Not at hall
  refine h (BitVec.eq_of_getLsbD_eq fun i hi => ?_)
  have hbit := hall (7 - i) (by omega)
  rw [Nat.sub_sub_self (Nat.le_of_lt_succ hi)] at hbit
  simpa using hbit

/-- Wrapping drops no pixel: a sprite covers some pixel exactly when one of its bytes is not 0 (44_display.md R164). -/
theorem exists_spriteCovers_iff (s : State) (x y : RegIx) (n : Nat) :
    (∃ r c, SpriteCovers s x y n r c) ↔ ∃ j < n, s.mem.read (dataBase s + j) ≠ 0 := by
  constructor
  · rintro ⟨r, c, j, hj, k, -, hbit, -⟩
    refine ⟨j, hj, fun hzero => ?_⟩
    rw [show s.mem.read (s.i.toNat + j) = 0 from hzero] at hbit
    simp at hbit
  · rintro ⟨j, hj, hne⟩
    obtain ⟨k, hk, hbit⟩ := exists_getLsbD_of_ne_zero hne
    exact ⟨Fin.ofNat 32 _, Fin.ofNat 64 _, j, hj, k, hk, hbit, rfl, rfl⟩

/-! ### The draw -/

theorem drawPixels_fb (s : State) (pixels : List (Fin 32 × Fin 64)) :
    (drawPixels s pixels).fb = (xorDraw s.fb pixels).1 := rfl

theorem getV_vf_drawPixels (s : State) (pixels : List (Fin 32 × Fin 64)) :
    (drawPixels s pixels).getV vf = flagOf (xorDraw s.fb pixels).2 :=
  State.getV_setV_same _ _ _

theorem exec_drw_of_fits (x y : RegIx) {n : Nat} {s : State} (h : n = 0 ∨ dataBase s + n - 1 ≤ 0xFFF) :
    exec (.drw x y n) s = .next (drawPixels s (drawnPixels s x y n)) := by
  have hfits : n = 0 ∨ dataBase s + n ≤ memSize := h.imp_right fun hle => Nat.le_add_of_sub_le hle
  show execDrw x y n s = _
  rw [execDrw, (memRead_eq_some _ _ _ _).mpr ⟨hfits, rfl⟩, Option.map_some, orRaise_some, drawnPixels]

/-- 44_display.md R166(a). -/
theorem exec_drw_of_off (x y : RegIx) {n : Nat} {s : State} (hn : n < 16) (h : n = 0 ∨ dataBase s + n - 1 ≤ 0xFFF)
    (hoff : ∀ r c, Framebuffer.pixel s.fb r c = false) :
    ∃ d, exec (.drw x y n) s = .next d ∧ d.getV vf = 0 := by
  refine ⟨_, exec_drw_of_fits x y h, ?_⟩
  rw [getV_vf_drawPixels, xorDraw_hit_of_off (nodup_drawnPixels s x y hn) hoff]
  rfl

/-- 44_display.md R166(b): a draw that toggles the same pixels as one before it, on the screen that one left. -/
theorem exec_drw_after_drw {x y : RegIx} {n : Nat} {s u : State} (hn : n < 16) (h : n = 0 ∨ dataBase u + n - 1 ≤ 0xFFF)
    (hfb : u.fb = (drawPixels s (drawnPixels s x y n)).fb) (hsame : drawnPixels u x y n = drawnPixels s x y n) :
    ∃ d, exec (.drw x y n) u = .next d ∧ d.fb = s.fb ∧
      ((∀ r c, Framebuffer.pixel s.fb r c = false) →
        d.getV vf = if ∃ j < n, s.mem.read (dataBase s + j) ≠ 0 then 1 else 0) := by
  have hnodup := nodup_drawnPixels s x y hn
  refine ⟨_, exec_drw_of_fits x y h, ?_, fun hoff => ?_⟩
  · rw [drawPixels_fb, hsame, hfb, drawPixels_fb, xorDraw_xorDraw s.fb hnodup]
  · rw [getV_vf_drawPixels, hsame, hfb, drawPixels_fb, flagOf]
    refine if_congr ?_ rfl rfl
    simp only [xorDraw_xorDraw_hit_of_off hnodup hoff, mem_drawnPixels, exists_spriteCovers_iff]

/-- Settles O51: CLS leaves every pixel off, and the second draw toggles the pixels of the first. -/
theorem drawingTwiceRestoresTheScreen : Obligations.DrawingTwiceRestoresTheScreen := by
  constructor
  · intro x y n s hn hfits
    refine ⟨_, rfl, fun u hfb hi => exec_drw_of_off x y hn ?_ fun r c => ?_⟩
    · rwa [dataBase, hi]
    · rw [hfb]
      exact Framebuffer.pixel_clear r c
  · intro x y n s hn hfits
    refine ⟨_, exec_drw_of_fits x y hfits, fun u hfb hmem hi hrow hcol => ?_⟩
    refine exec_drw_after_drw hn ?_ hfb (drawnPixels_congr n hmem hi hrow hcol)
    rwa [dataBase, hi]

end Sys2Proof.Machine
end

section
/-! PROOFS. The timer instructions (45_timer_keypad.md R170 to R172): each is one write of a register or of a timer. -/

namespace Sys2Proof

theorem decodeWord_ldVxDt (x : RegIx) : decodeWord (formXNN 0xF#4 x 0x07#8) = some (.ldVxDt x) := by
  simp [decodeWord_formXNN_F, decodeF]

theorem decodeWord_ldDtVx (x : RegIx) : decodeWord (formXNN 0xF#4 x 0x15#8) = some (.ldDtVx x) := by
  simp [decodeWord_formXNN_F, decodeF]

theorem decodeWord_ldStVx (x : RegIx) : decodeWord (formXNN 0xF#4 x 0x18#8) = some (.ldStVx x) := by
  simp [decodeWord_formXNN_F, decodeF]

end Sys2Proof

namespace Sys2Proof.Machine

/-- Settles O53: one write of Vx, one of DT and one of ST. -/
theorem timerInstructionsMoveOneByte : Obligations.TimerInstructionsMoveOneByte := fun x s =>
  ⟨decodeWord_ldVxDt x, decodeWord_ldDtVx x, decodeWord_ldStVx x, exec_of_setV rfl,
    ⟨_, rfl, rfl, changesOnly_dt s _⟩, ⟨_, rfl, rfl, changesOnly_st s _⟩⟩

end Sys2Proof.Machine
end

section
/-! PROOFS. Faults and modes (60_exceptions.md R183, R189, R203): what a step on an illegal word leaves, what an execute phase does to the
mode, and which events end `Halted` and `AwaitingKey`. -/

namespace Sys2Proof.Machine

/-! ### An illegal word (60_exceptions.md R183) -/

/-- The cycle on an illegal word: latch and advance stand, and the mode is the fault's. -/
theorem cycle_of_illegal {s : State} {w : Word} (hfetch : fetch s = some w) (hill : decodeWord w = none) :
    cycle s = .next ((s.latch w).raise .unknownOpcode) := by
  simp only [cycle, hfetch, hill]

/-- Settles O10: the cycle on an illegal word, from the state the step begins in. -/
theorem unknownOpcodeHaltsPastTheWord : Obligations.UnknownOpcodeHaltsPastTheWord := by
  intro s keys rnd w hrun hfetch hill
  have hword : fetch (s.atStep keys rnd) = some w := (fetch_atStep s keys rnd).trans hfetch
  rw [step_of_runsStep hrun, cycle_of_illegal hword hill, ← State.atStep_pc s keys rnd]
  rfl

/-! ### The steps that fetch nothing (40_cycle.md R87, R88) -/

theorem stepByMode_of_halted {s : State} {c : Cause} (h : s.mode = .halted c) : stepByMode s = .next s := by
  simp only [stepByMode, h]

theorem stepByMode_of_awaitingKey {s : State} {x : RegIx} (h : s.mode = .awaitingKey x) :
    stepByMode s = .next (resolveWait x s) := by
  simp only [stepByMode, h]

theorem resolveWait_of_no_key (x : RegIx) {s : State} (h : s.keys = 0) : resolveWait x s = s := by
  have hnone : resolvingKey hardware.keyWait s.keys = none := (resolvingKey_eq_none s.keys).mpr h
  simp only [resolveWait, hnone]

theorem mode_resolveWait_of_key (x : RegIx) {s : State} (h : s.keys ≠ 0) : (resolveWait x s).mode = .running := by
  obtain ⟨k, hk⟩ : ∃ k, resolvingKey hardware.keyWait s.keys = some k :=
    Option.ne_none_iff_exists'.mp fun hnone => h ((resolvingKey_eq_none s.keys).mp hnone)
  simp only [resolveWait, hk]

/-! ### The events reset, tick and load -/

@[simp] theorem mode_resetEvent (s : State) : (resetEvent s).mode = .running := rfl

@[simp] theorem mode_tickEvent (s : State) : (tickEvent s).mode = s.mode := rfl

@[simp] theorem toNat_dt_tickEvent (s : State) : (tickEvent s).dt.toNat = s.dt.toNat - 1 := toNat_countDown s.dt

@[simp] theorem toNat_st_tickEvent (s : State) : (tickEvent s).st.toNat = s.st.toNat - 1 := toNat_countDown s.st

@[simp] theorem mode_loadEvent (bytes : List Byte) (s : State) : (loadEvent bytes s).mode = s.mode :=
  changesOnly_loadEvent bytes s .mode (by simp)

/-! ### Leaving `Halted`, and no fault in a key wait -/

/-- Load and tick keep a halted mode, and a step keeps the whole halted state. -/
theorem step_of_halted {s : State} {c : Cause} (h : s.mode = .halted c) :
    ∃ t, step s = .next t ∧ (s.nextEvent ≠ .reset → t.mode = .halted c) ∧ (s.nextEvent = .reset → t.mode = .running) ∧
      ∀ keys rnd, s.nextEvent = .step keys rnd → t = s.atStep keys rnd := by
  obtain ⟨he, hs⟩ | ⟨bytes, he, hs⟩ | ⟨he, hs⟩ | ⟨keys, rnd, he, hs⟩ := step_cases s
  · exact ⟨_, hs, by simp [he]⟩
  · exact ⟨_, hs, by simp [he, h]⟩
  · exact ⟨_, hs, by simp [he, h]⟩
  · refine ⟨_, hs.trans (stepByMode_of_halted (by simpa using h)), ?_⟩
    rw [he]
    exact ⟨fun _ => (State.atStep_mode s keys rnd).trans h, nofun, fun | _, _, rfl => rfl⟩

/-- Every event keeps a key wait or ends it in mode `Running`. -/
theorem mode_step_of_awaitingKey {s : State} {x : RegIx} (h : s.mode = .awaitingKey x) :
    ∃ t, step s = .next t ∧ (t.mode = .awaitingKey x ∨ t.mode = .running) := by
  obtain ⟨-, hs⟩ | ⟨bytes, -, hs⟩ | ⟨-, hs⟩ | ⟨keys, rnd, -, hs⟩ := step_cases s
  · exact ⟨_, hs, .inr rfl⟩
  · exact ⟨_, hs, .inl (by simpa using h)⟩
  · exact ⟨_, hs, .inl (by simpa using h)⟩
  · refine ⟨_, hs.trans (stepByMode_of_awaitingKey (by simpa using h)), ?_⟩
    by_cases hkeys : keys = 0
    · rw [resolveWait_of_no_key x hkeys]
      exact .inl (by simpa using h)
    · exact .inr (mode_resolveWait_of_key x hkeys)

/-- Settles O23: what every event does in mode `Halted`, and the two modes a key wait can lead to. -/
theorem onlyResetLeavesHalted : Obligations.OnlyResetLeavesHalted := by
  refine ⟨fun s c => step_of_halted, fun s x h => ?_⟩
  obtain ⟨t, hs, hmode⟩ := mode_step_of_awaitingKey h
  exact ⟨t, hs, fun c => by obtain hm | hm := hmode <;> simp [hm]⟩

/-! ### The mode after an execute phase -/

/-- The outcome is a next state, and its mode is that of `s` or a halted one. -/
def KeepsModeOrHalts (s : State) (o : Host.Outcome State Fault Refusal) : Prop :=
  ∃ t, o = .next t ∧ (t.mode = s.mode ∨ ∃ c, t.mode = .halted c)

theorem keepsModeOrHalts_next {s t : State} (h : t.mode = s.mode) : KeepsModeOrHalts s (.next t) :=
  ⟨t, rfl, .inl h⟩

/-- An operation that keeps the mode where it answers may fault where it does not. -/
theorem keepsModeOrHalts_orRaise {s : State} {c : Cause} {r : Option State} (h : ∀ t, r = some t → t.mode = s.mode) :
    KeepsModeOrHalts s (orRaise s c r) := by
  cases r with
  | none => exact ⟨_, orRaise_none s c, .inr ⟨c, State.raise_mode s c⟩⟩
  | some t => exact keepsModeOrHalts_next (h t rfl)

/-- An operation on a value that could be read, where the read may fault. -/
theorem keepsModeOrHalts_orRaise_map {α : Type} {s : State} {c : Cause} {r : Option α} {f : α → State}
    (h : ∀ a, r = some a → (f a).mode = s.mode) : KeepsModeOrHalts s (orRaise s c (r.map f)) := by
  refine keepsModeOrHalts_orRaise fun t ht => ?_
  obtain ⟨a, ha, rfl⟩ := Option.map_eq_some_iff.mp ht
  exact h a ha

theorem mode_of_pushReturn {a : Word} {s t : State} (h : pushReturn a s = some t) : t.mode = s.mode := by
  obtain ⟨-, rfl⟩ := (pushReturn_eq_some a s t).mp h
  rfl

theorem mode_of_popReturn {s : State} {p : Word × State} (h : popReturn s = some p) : p.2.mode = s.mode := by
  obtain ⟨_, -, hp⟩ := (popReturn_eq_some s p.2 p.1).mp h
  rw [hp]

theorem mode_of_memWrite {a : Nat} {bytes : List Byte} {s t : State} (h : memWrite a bytes s = some t) :
    t.mode = s.mode := by
  obtain ⟨-, rfl⟩ := (memWrite_eq_some a bytes s t).mp h
  rfl

theorem mode_of_skipOnKey {x : RegIx} {pressed : Bool} {s t : State} (h : skipOnKey x pressed s = some t) :
    t.mode = s.mode := by
  unfold skipOnKey at h
  split_ifs at h
  cases h
  rfl

theorem mode_setVs (s : State) (bytes : List Byte) : (s.setVs 0 bytes).mode = s.mode :=
  changesOnly_setVs s bytes .mode (by simp)

/-- `LD Vx,K` aside, no instruction enters a mode but by a fault: an arm keeps the mode, or ends in an operation that does or faults. -/
theorem exec_keepsModeOrHalts {i : Instr} (s : State) (hkey : ∀ x, i ≠ .ldVxKey x) : KeepsModeOrHalts s (exec i s) := by
  cases i with
  | ldVxKey x => exact absurd rfl (hkey x)
  | ret => exact keepsModeOrHalts_orRaise_map fun _ => mode_of_popReturn
  | call nnn => exact keepsModeOrHalts_orRaise_map fun _ => mode_of_pushReturn
  | drw x y n => exact keepsModeOrHalts_orRaise_map fun _ _ => rfl
  | loadRegs x => exact keepsModeOrHalts_orRaise_map fun bytes _ => mode_setVs s bytes
  | ldBcd x => exact keepsModeOrHalts_orRaise fun _ => mode_of_memWrite
  | storeRegs x => exact keepsModeOrHalts_orRaise fun _ => mode_of_memWrite
  | skp x => exact keepsModeOrHalts_orRaise fun _ => mode_of_skipOnKey
  | sknp x => exact keepsModeOrHalts_orRaise fun _ => mode_of_skipOnKey
  | ldFont x =>
    refine keepsModeOrHalts_orRaise fun t ht => ?_
    split_ifs at ht
    cases ht
    rfl
  | _ => exact keepsModeOrHalts_next rfl

/-! ### AwaitingKey -/

/-- From mode `Running` the wait is entered by `LD Vx,K` alone. -/
theorem exec_awaitingKey_iff (i : Instr) {s : State} (x : RegIx) (h : s.mode = .running) :
    ∃ t, exec i s = .next t ∧ (t.mode = .awaitingKey x ↔ i = .ldVxKey x) := by
  by_cases hkey : ∃ y, i = .ldVxKey y
  · obtain ⟨y, rfl⟩ := hkey
    exact ⟨_, rfl, by simp⟩
  · obtain ⟨t, ht, hmode⟩ := exec_keepsModeOrHalts s fun y hy => hkey ⟨y, hy⟩
    have hne : t.mode ≠ .awaitingKey x := by
      obtain hmode | ⟨c, hmode⟩ := hmode <;> simp [hmode, h]
    exact ⟨t, ht, fun hx => absurd hx hne, fun hi => absurd ⟨x, hi⟩ hkey⟩

/-- Settles O24: the execute phase on entry, then one event after another in the wait. -/
theorem onlyAKeyOrResetEndsTheKeyWait : Obligations.OnlyAKeyOrResetEndsTheKeyWait := by
  refine ⟨fun i s x => exec_awaitingKey_iff i x, fun s x h => ?_⟩
  obtain ⟨he, hs⟩ | ⟨bytes, he, hs⟩ | ⟨he, hs⟩ | ⟨keys, rnd, he, hs⟩ := step_cases s
  · exact ⟨_, hs, by simp [he]⟩
  · exact ⟨_, hs, by simp [he, h]⟩
  · exact ⟨_, hs, by simp [he, changesOnly_tickEvent]⟩
  · refine ⟨_, hs.trans (stepByMode_of_awaitingKey (by simpa using h)), ?_⟩
    rw [he]
    refine ⟨?_, nofun, nofun, ?_, nofun⟩
    · rintro _ ⟨⟩
      exact resolveWait_of_no_key x rfl
    · rintro _ _ ⟨⟩ hkeys
      exact mode_resolveWait_of_key x hkeys

end Sys2Proof.Machine
end

section
/-! PROOFS. The decoder, the encoder and the opcode table (30_encoding.md R63 to R70): every instruction's word decodes to it, and a word
decodes to an instruction exactly when it matches that instruction's row. -/

namespace Sys2Proof

/-! ### Decoding what the encoder writes -/

theorem decodeWord_drw (x y : RegIx) {n : Nat} (hn : n < 16) :
    decodeWord (formXYN 0xD#4 x y (BitVec.ofNat 4 n)) = some (.drw x y n) := by
  simp [decodeWord, Nat.mod_eq_of_lt hn]

theorem decodeWord_skp (x : RegIx) : decodeWord (formXNN 0xE#4 x 0x9E#8) = some (.skp x) := by
  simp [decodeWord, decodeE]

theorem decodeWord_sknp (x : RegIx) : decodeWord (formXNN 0xE#4 x 0xA1#8) = some (.sknp x) := by
  simp [decodeWord, decodeE]

theorem decodeWord_ldVxKey (x : RegIx) : decodeWord (formXNN 0xF#4 x 0x0A#8) = some (.ldVxKey x) := by
  simp [decodeWord_formXNN_F, decodeF]

/-- The decoder undoes the encoder; the row count of `DRW` is the one operand that could exceed its field. -/
theorem decodeWord_encode {i : Instr} (hwf : i.wf = true) : decodeWord (encode i) = some i := by
  cases i with
  | cls => decide
  | ret => decide
  | jp nnn => exact decodeWord_jp nnn
  | call nnn => exact decodeWord_call nnn
  | seImm x nn => exact decodeWord_seImm x nn
  | sneImm x nn => exact decodeWord_sneImm x nn
  | seReg x y => exact decodeWord_seReg x y
  | ldImm x nn => exact decodeWord_ldImm x nn
  | addImm x nn => exact decodeWord_addImm x nn
  | ldReg x y => exact decodeWord_ldReg x y
  | orReg x y => exact decodeWord_orReg x y
  | andReg x y => exact decodeWord_andReg x y
  | xorReg x y => exact decodeWord_xorReg x y
  | addReg x y => exact decodeWord_addReg x y
  | subReg x y => exact decodeWord_subReg x y
  | shr x => exact decodeWord_shr x 0
  | subnReg x y => exact decodeWord_subnReg x y
  | shl x => exact decodeWord_shl x 0
  | sneReg x y => exact decodeWord_sneReg x y
  | ldI nnn => exact decodeWord_ldI nnn
  | jpV0 nnn => exact decodeWord_jpV0 nnn
  | rnd x nn => exact decodeWord_rnd x nn
  | drw x y n => exact decodeWord_drw x y (of_decide_eq_true hwf)
  | skp x => exact decodeWord_skp x
  | sknp x => exact decodeWord_sknp x
  | ldVxDt x => exact decodeWord_ldVxDt x
  | ldVxKey x => exact decodeWord_ldVxKey x
  | ldDtVx x => exact decodeWord_ldDtVx x
  | ldStVx x => exact decodeWord_ldStVx x
  | addI x => exact decodeWord_addI x
  | ldFont x => exact decodeWord_ldFont x
  | ldBcd x => exact decodeWord_ldBcd x
  | storeRegs x => exact decodeWord_storeRegs x
  | loadRegs x => exact decodeWord_loadRegs x

/-- On a list of bytes the decoder reads the word of the first two, the first one high (20_memory.md R41). -/
theorem decode_cons_cons {hi lo : Byte} {i : Instr} (rest : List Byte) (h : decodeWord (wordOfBytes hi lo) = some i) :
    decode (hi :: lo :: rest) = .ok (i, rest) := by
  simp only [decode, h]

/-- Everything the decoder can answer on a list of bytes. -/
theorem eq_cons_cons_of_decode {bytes rest : List Byte} {i : Instr} (h : decode bytes = .ok (i, rest)) :
    ∃ hi lo, bytes = hi :: lo :: rest ∧ decodeWord (wordOfBytes hi lo) = some i := by
  unfold decode at h
  split at h
  · rename_i hi lo tail
    split at h
    · rename_i hword
      cases h
      exact ⟨hi, lo, rfl, hword⟩
    · cases h
  · cases h

/-- Settles O2: the decoder undoes the encoder on words, and two bytes in memory order make the word again. -/
theorem decodeOfEncodeIsIdentity : Obligations.DecodeOfEncodeIsIdentity := by
  intro i rest hwf
  have hword := decodeWord_encode hwf
  refine ⟨hword, decode_cons_cons rest ?_⟩
  rwa [wordOfBytes_bytes]

/-- Settles O1: each word is evaluated. -/
theorem sampleWordsDecodeAsTheTableSays : Obligations.SampleWordsDecodeAsTheTableSays := by
  unfold Obligations.SampleWordsDecodeAsTheTableSays
  decide

/-! ### A masked word, from the fields the mask keeps -/

theorem append_eq_append_iff {m n : Nat} {a b : BitVec m} {c d : BitVec n} : a ++ c = b ++ d ↔ a = b ∧ c = d := by
  refine ⟨fun h => ⟨?_, ?_⟩, fun ⟨hab, hcd⟩ => hab ▸ hcd ▸ rfl⟩
  · simpa only [BitVec.extractLsb'_append_eq_left] using congrArg (BitVec.extractLsb' n m) h
  · simpa only [BitVec.extractLsb'_append_eq_right] using congrArg (BitVec.extractLsb' 0 n) h

theorem and_F000_eq_iff (w : Word) (t : BitVec 4) : w &&& 0xF000#16 = t ++ 0#12 ↔ fieldTop w = t.toNat := by
  conv_lhs => rw [eq_formNNN w, formNNN_and_F000]
  rw [BitVec.append_left_inj, ← BitVec.toNat_inj, fieldTop]

theorem and_F00F_eq_iff (w : Word) (t n : BitVec 4) :
    w &&& 0xF00F#16 = t ++ 0#4 ++ 0#4 ++ n ↔ fieldTop w = t.toNat ∧ fieldN w = n.toNat := by
  conv_lhs => rw [eq_formXYN w, formXYN_and_F00F]
  rw [append_eq_append_iff, BitVec.append_left_inj, BitVec.append_left_inj, ← BitVec.toNat_inj, ← BitVec.toNat_inj,
    fieldTop, fieldN]

theorem and_F0FF_eq_iff (w : Word) (t : BitVec 4) (nn : Byte) :
    w &&& 0xF0FF#16 = t ++ 0#4 ++ nn ↔ fieldTop w = t.toNat ∧ fieldNN w = nn := by
  conv_lhs => rw [eq_formXNN w, formXNN_and_F0FF]
  rw [append_eq_append_iff, BitVec.append_left_inj, ← BitVec.toNat_inj, fieldTop]

/-! ### From a decoded word to its row -/

theorem and_F000_of_top {w : Word} {t : Nat} (ht : fieldTop w = t) : w &&& 0xF000#16 = BitVec.ofNat 4 t ++ 0#12 := by
  subst ht
  exact (and_F000_eq_iff w _).mpr (by simp [fieldTop])

theorem and_F00F_of_fields {w : Word} {t n : Nat} (ht : fieldTop w = t) (hn : fieldN w = n) :
    w &&& 0xF00F#16 = BitVec.ofNat 4 t ++ 0#4 ++ 0#4 ++ BitVec.ofNat 4 n := by
  subst ht hn
  exact (and_F00F_eq_iff w _ _).mpr ⟨by simp [fieldTop], by simp [fieldN]⟩

theorem and_F0FF_of_fields {w : Word} {t : Nat} {nn : Byte} (ht : fieldTop w = t) (hnn : fieldNN w = nn) :
    w &&& 0xF0FF#16 = BitVec.ofNat 4 t ++ 0#4 ++ nn := by
  subst ht
  exact (and_F0FF_eq_iff w _ nn).mpr ⟨by simp [fieldTop], hnn⟩

/-- What a decoded word says: its operands fit, and the word matches the row of its instruction. -/
def DecodesInRow (w : Word) (i : Instr) : Prop :=
  i.wf = true ∧ ∃ row, opcodeTable[i.row - 1]? = some row ∧ w &&& row.2 = row.1

theorem decodesInRow_of_decode0 {w : Word} {i : Instr} (h : decode0 w = some i) : DecodesInRow w i := by
  unfold decode0 at h
  split_ifs at h with hw hw <;> (subst hw; cases h; exact ⟨rfl, _, rfl, rfl⟩)

theorem decodesInRow_of_decode8 {w : Word} {i : Instr} (ht : fieldTop w = 0x8) (h : decode8 w = some i) :
    DecodesInRow w i := by
  unfold decode8 at h
  split at h
  case h_10 => cases h
  case h_1 hn | h_2 hn | h_3 hn | h_4 hn | h_5 hn | h_6 hn | h_7 hn | h_8 hn | h_9 hn =>
    cases h; exact ⟨rfl, _, rfl, and_F00F_of_fields ht hn⟩

theorem decodesInRow_of_decodeE {w : Word} {i : Instr} (ht : fieldTop w = 0xE) (h : decodeE w = some i) :
    DecodesInRow w i := by
  unfold decodeE at h
  split_ifs at h with hnn hnn <;> (cases h; exact ⟨rfl, _, rfl, and_F0FF_of_fields ht hnn⟩)

theorem decodesInRow_of_decodeF {w : Word} {i : Instr} (ht : fieldTop w = 0xF) (h : decodeF w = some i) :
    DecodesInRow w i := by
  unfold decodeF at h
  split_ifs at h with hnn hnn hnn hnn hnn hnn hnn hnn hnn <;>
    (cases h; exact ⟨rfl, _, rfl, and_F0FF_of_fields ht hnn⟩)

theorem decodesInRow_of_decodeWord {w : Word} {i : Instr} (h : decodeWord w = some i) : DecodesInRow w i := by
  unfold decodeWord at h
  split at h
  case h_1 => exact decodesInRow_of_decode0 h
  case h_9 ht => exact decodesInRow_of_decode8 ht h
  case h_15 ht => exact decodesInRow_of_decodeE ht h
  case h_16 ht => exact decodesInRow_of_decodeF ht h
  case h_17 => cases h
  case h_6 ht | h_10 ht =>
    split_ifs at h with hn
    cases h; exact ⟨rfl, _, rfl, and_F00F_of_fields ht hn⟩
  case h_14 ht =>
    cases h; exact ⟨decide_eq_true (BitVec.isLt _), _, rfl, and_F000_of_top ht⟩
  case h_2 ht | h_3 ht | h_4 ht | h_5 ht | h_7 ht | h_8 ht | h_11 ht | h_12 ht | h_13 ht =>
    cases h; exact ⟨rfl, _, rfl, and_F000_of_top ht⟩

/-- Settles O7: the decoder reads two bytes, and every operand it cuts out of them fits its field. -/
theorem decodedInstructionIsWellFormed : Obligations.DecodedInstructionIsWellFormed := by
  intro bytes i rest h
  obtain ⟨hi, lo, rfl, hword⟩ := eq_cons_cons_of_decode h
  obtain ⟨hwf, -⟩ := decodesInRow_of_decodeWord hword
  exact ⟨hwf, rfl⟩

/-! ### From a row to the instruction -/

theorem decodeWord_of_and_FFFF {w m : Word} {i : Instr} (hdec : decodeWord m = some i) (h : w &&& 0xFFFF#16 = m) :
    decodeWord w = some i := by
  rwa [← BitVec.and_allOnes (x := w), show w &&& BitVec.allOnes 16 = m from h]

theorem decodeWord_of_and_F000_NNN {w : Word} {t : BitVec 4} {f : BitVec 12 → Instr}
    (hdec : ∀ nnn, decodeWord (formNNN t nnn) = some (f nnn)) (h : w &&& 0xF000#16 = t ++ 0#12) :
    decodeWord w = some (f (fieldNNN w)) := by
  rw [← hdec, formNNN_of_fields ((and_F000_eq_iff w t).mp h)]

theorem decodeWord_of_and_F000_XNN {w : Word} {t : BitVec 4} {f : RegIx → Byte → Instr}
    (hdec : ∀ x nn, decodeWord (formXNN t x nn) = some (f x nn)) (h : w &&& 0xF000#16 = t ++ 0#12) :
    decodeWord w = some (f (fieldX w) (fieldNN w)) := by
  rw [← hdec, formXNN_of_top ((and_F000_eq_iff w t).mp h)]

theorem decodeWord_of_and_F00F {w : Word} {t n : BitVec 4} {f : RegIx → RegIx → Instr}
    (hdec : ∀ x y, decodeWord (formXYN t x y n) = some (f x y)) (h : w &&& 0xF00F#16 = t ++ 0#4 ++ 0#4 ++ n) :
    decodeWord w = some (f (fieldX w) (fieldY w)) := by
  obtain ⟨ht, hn⟩ := (and_F00F_eq_iff w t n).mp h
  rw [← hdec, formXYN_of_fields ht hn]

theorem decodeWord_of_and_F0FF {w : Word} {t : BitVec 4} {nn : Byte} {f : RegIx → Instr}
    (hdec : ∀ x, decodeWord (formXNN t x nn) = some (f x)) (h : w &&& 0xF0FF#16 = t ++ 0#4 ++ nn) :
    decodeWord w = some (f (fieldX w)) := by
  obtain ⟨ht, hnn⟩ := (and_F0FF_eq_iff w t nn).mp h
  rw [← hdec, formXNN_of_fields ht hnn]

theorem decodeWord_of_and_F000_XYN {w : Word} (h : w &&& 0xF000#16 = 0xD#4 ++ 0#12) :
    decodeWord w = some (.drw (fieldX w) (fieldY w) (fieldN w)) := by
  rw [← decodeWord_drw _ _ (BitVec.isLt _), formXYN_of_fields ((and_F000_eq_iff w _).mp h) (by simp [fieldN])]

/-- Row by row of 30_encoding.md R66: a word that matches decodes to an instruction of the row. -/
theorem decodeWord_of_row {w : Word} : ∀ {k : Nat} {row : Word × Word}, opcodeTable[k]? = some row → w &&& row.2 = row.1 →
    ∃ i, decodeWord w = some i ∧ i.row = k + 1
  | 0, _, rfl, h => ⟨_, decodeWord_of_and_FFFF (i := .cls) (by decide) h, rfl⟩
  | 1, _, rfl, h => ⟨_, decodeWord_of_and_FFFF (i := .ret) (by decide) h, rfl⟩
  | 2, _, rfl, h => ⟨_, decodeWord_of_and_F000_NNN decodeWord_jp h, rfl⟩
  | 3, _, rfl, h => ⟨_, decodeWord_of_and_F000_NNN decodeWord_call h, rfl⟩
  | 4, _, rfl, h => ⟨_, decodeWord_of_and_F000_XNN decodeWord_seImm h, rfl⟩
  | 5, _, rfl, h => ⟨_, decodeWord_of_and_F000_XNN decodeWord_sneImm h, rfl⟩
  | 6, _, rfl, h => ⟨_, decodeWord_of_and_F00F decodeWord_seReg h, rfl⟩
  | 7, _, rfl, h => ⟨_, decodeWord_of_and_F000_XNN decodeWord_ldImm h, rfl⟩
  | 8, _, rfl, h => ⟨_, decodeWord_of_and_F000_XNN decodeWord_addImm h, rfl⟩
  | 9, _, rfl, h => ⟨_, decodeWord_of_and_F00F decodeWord_ldReg h, rfl⟩
  | 10, _, rfl, h => ⟨_, decodeWord_of_and_F00F decodeWord_orReg h, rfl⟩
  | 11, _, rfl, h => ⟨_, decodeWord_of_and_F00F decodeWord_andReg h, rfl⟩
  | 12, _, rfl, h => ⟨_, decodeWord_of_and_F00F decodeWord_xorReg h, rfl⟩
  | 13, _, rfl, h => ⟨_, decodeWord_of_and_F00F decodeWord_addReg h, rfl⟩
  | 14, _, rfl, h => ⟨_, decodeWord_of_and_F00F decodeWord_subReg h, rfl⟩
  | 15, _, rfl, h => ⟨_, decodeWord_of_and_F00F decodeWord_shr h, rfl⟩
  | 16, _, rfl, h => ⟨_, decodeWord_of_and_F00F decodeWord_subnReg h, rfl⟩
  | 17, _, rfl, h => ⟨_, decodeWord_of_and_F00F decodeWord_shl h, rfl⟩
  | 18, _, rfl, h => ⟨_, decodeWord_of_and_F00F decodeWord_sneReg h, rfl⟩
  | 19, _, rfl, h => ⟨_, decodeWord_of_and_F000_NNN decodeWord_ldI h, rfl⟩
  | 20, _, rfl, h => ⟨_, decodeWord_of_and_F000_NNN decodeWord_jpV0 h, rfl⟩
  | 21, _, rfl, h => ⟨_, decodeWord_of_and_F000_XNN decodeWord_rnd h, rfl⟩
  | 22, _, rfl, h => ⟨_, decodeWord_of_and_F000_XYN h, rfl⟩
  | 23, _, rfl, h => ⟨_, decodeWord_of_and_F0FF decodeWord_skp h, rfl⟩
  | 24, _, rfl, h => ⟨_, decodeWord_of_and_F0FF decodeWord_sknp h, rfl⟩
  | 25, _, rfl, h => ⟨_, decodeWord_of_and_F0FF decodeWord_ldVxDt h, rfl⟩
  | 26, _, rfl, h => ⟨_, decodeWord_of_and_F0FF decodeWord_ldVxKey h, rfl⟩
  | 27, _, rfl, h => ⟨_, decodeWord_of_and_F0FF decodeWord_ldDtVx h, rfl⟩
  | 28, _, rfl, h => ⟨_, decodeWord_of_and_F0FF decodeWord_ldStVx h, rfl⟩
  | 29, _, rfl, h => ⟨_, decodeWord_of_and_F0FF decodeWord_addI h, rfl⟩
  | 30, _, rfl, h => ⟨_, decodeWord_of_and_F0FF decodeWord_ldFont h, rfl⟩
  | 31, _, rfl, h => ⟨_, decodeWord_of_and_F0FF decodeWord_ldBcd h, rfl⟩
  | 32, _, rfl, h => ⟨_, decodeWord_of_and_F0FF decodeWord_storeRegs h, rfl⟩
  | 33, _, rfl, h => ⟨_, decodeWord_of_and_F0FF decodeWord_loadRegs h, rfl⟩

/-- Settles O5: a word decodes to one instruction, so the rows it matches have one number. -/
theorem rowsOfTheOpcodeTableAreDisjoint : Obligations.RowsOfTheOpcodeTableAreDisjoint := by
  refine ⟨rfl, fun w j k rj rk hj hk hwj hwk => ?_⟩
  obtain ⟨i, hi, hrow⟩ := decodeWord_of_row hj hwj
  obtain ⟨i', hi', hrow'⟩ := decodeWord_of_row hk hwk
  obtain rfl : i = i' := Option.some.inj (hi.symm.trans hi')
  omega

/-! ### Illegal words (30_encoding.md R67) -/

theorem decodeWord_of_no_row {w : Word} (h : ∀ row ∈ opcodeTable, w &&& row.2 ≠ row.1) : decodeWord w = none := by
  refine Option.eq_none_iff_forall_ne_some.mpr fun i hi => ?_
  obtain ⟨-, row, hrow, hmatch⟩ := decodesInRow_of_decodeWord hi
  exact h row (List.mem_of_getElem? hrow) hmatch

theorem decode0_eq_none_iff (w : Word) : decode0 w = none ↔ w ≠ 0x00E0#16 ∧ w ≠ 0x00EE#16 := by
  unfold decode0
  split_ifs <;> simp [*]

theorem decode8_eq_none_iff (w : Word) : decode8 w = none ↔ fieldN w ∈ [0x8, 0x9, 0xA, 0xB, 0xC, 0xD, 0xF] := by
  have hlt : fieldN w < 16 := BitVec.isLt _
  unfold decode8
  generalize fieldN w = n at hlt
  interval_cases n <;> simp

theorem decodeE_eq_none_iff (w : Word) : decodeE w = none ↔ (fieldNN w).toNat ∉ [0x9E, 0xA1] := by
  simp only [decodeE, ← BitVec.toNat_inj, BitVec.reduceToNat]
  split_ifs <;> simp [*]

theorem decodeF_eq_none_iff (w : Word) :
    decodeF w = none ↔ (fieldNN w).toNat ∉ [0x07, 0x0A, 0x15, 0x18, 0x1E, 0x29, 0x33, 0x55, 0x65] := by
  simp only [decodeF, ← BitVec.toNat_inj, BitVec.reduceToNat]
  split_ifs <;> simp [*]

/-- The illegal words, by the top nibble first and then by the group's own selector. -/
theorem decodeWord_eq_none_iff (w : Word) : decodeWord w = none ↔
    (fieldTop w = 0x0 ∧ w ≠ 0x00E0#16 ∧ w ≠ 0x00EE#16) ∨
    (fieldTop w = 0x5 ∧ fieldN w ≠ 0) ∨
    (fieldTop w = 0x8 ∧ fieldN w ∈ [0x8, 0x9, 0xA, 0xB, 0xC, 0xD, 0xF]) ∨
    (fieldTop w = 0x9 ∧ fieldN w ≠ 0) ∨
    (fieldTop w = 0xE ∧ (fieldNN w).toNat ∉ [0x9E, 0xA1]) ∨
    (fieldTop w = 0xF ∧ (fieldNN w).toNat ∉ [0x07, 0x0A, 0x15, 0x18, 0x1E, 0x29, 0x33, 0x55, 0x65]) := by
  have hlt : fieldTop w < 16 := BitVec.isLt _
  rw [← decode0_eq_none_iff, ← decode8_eq_none_iff, ← decodeE_eq_none_iff, ← decodeF_eq_none_iff]
  unfold decodeWord
  generalize fieldTop w = t at hlt
  interval_cases t <;> simp

end Sys2Proof

namespace Sys2Proof.Machine

theorem step_of_illegal {s : State} {keys : BitVec 16} {rnd : Byte} {w : Word} (hrun : s.RunsStep keys rnd)
    (hfetch : fetch s = some w) (hill : decodeWord w = none) :
    ∃ t, step s = .next t ∧ t.mode = .halted .unknownOpcode :=
  ⟨_, unknownOpcodeHaltsPastTheWord s keys rnd w hrun hfetch hill, rfl⟩

/-- Settles O3: from an instruction to its row, from a row to its instruction, and the step on a word without a row. -/
theorem wordIsAnInstructionExactlyWhenItMatchesARow : Obligations.WordIsAnInstructionExactlyWhenItMatchesARow :=
  ⟨fun _ _ hi => (decodesInRow_of_decodeWord hi).2, fun _ _ _ => decodeWord_of_row,
    fun _ _ _ _ hrun hfetch hno => step_of_illegal hrun hfetch (decodeWord_of_no_row hno)⟩

/-- Settles O4: the decoder's groups, their selectors read as numbers. -/
theorem illegalWordsAreExactlyTheListedOnes : Obligations.IllegalWordsAreExactlyTheListedOnes := by
  refine ⟨fun w => ?_, fun _ _ _ _ => step_of_illegal⟩
  rw [decodeWord_eq_none_iff, fieldTop_eq, fieldN_eq, fieldNN_toNat]

end Sys2Proof.Machine
end

section
/-! PROOFS. The memory array as a whole (20_memory.md R46, R47, R53): checked reads and writes, the fetch after a store, and the canonical
list an array has. -/

namespace Sys2Proof.Machine

/-! ### The checked range (20_memory.md R46, R47) -/

/-- A read inside the array, or of no byte at all, answers the bytes in order. -/
theorem memRead_of_fits {a n : Nat} (s : State) (h : n = 0 ∨ a + n - 1 ≤ 4095) :
    ∃ bytes, memRead a n s = some bytes ∧ bytes.length = n ∧ ∀ j (hj : j < bytes.length), bytes[j] = s.mem.read (a + j) :=
  ⟨_, (memRead_eq_some a n s _).mpr ⟨h.imp_right Nat.le_add_of_sub_le, rfl⟩, Memory.length_bytes _ a n,
    Memory.getElem_bytes _ a n⟩

/-- Settles O46: the check on the last address decides for the whole range. -/
theorem memoryPrimitivesCheckTheWholeRange : Obligations.MemoryPrimitivesCheckTheWholeRange :=
  ⟨fun a n s hn h => (memRead_eq_none a n s).mpr ⟨hn, Nat.lt_of_le_pred (by omega) h⟩,
    fun _ _ s => memRead_of_fits s,
    fun a bytes s _ h => (memWrite_eq_none a bytes s).mpr (show 4096 < _ by omega),
    fun _ _ s _ h => memWrite_of_fits s (Nat.le_add_of_sub_le h)⟩

/-! ### A fetch after a store (20_memory.md R53) -/

/-- A fetch with both bytes inside the array, from the bytes it reads. -/
theorem fetch_of_reads {u : State} {a : Nat} {hi lo : Byte} (hpc : u.pc.toNat = a) (ha : a < 0xFFF)
    (hhi : u.mem.read a = hi) (hlo : u.mem.read (a + 1) = lo) : fetch u = some (wordOfBytes hi lo) := by
  subst hpc hhi hlo
  exact fetch_of_lt ha

theorem fetch_after_storeRegs {x j k : RegIx} {s : State} (hfits : dataBase s + x.val ≤ 0xFFF) (hk : k.val = j.val + 1)
    (hkx : k ≤ x) : ∃ t, exec (.storeRegs x) s = .next t ∧
      ∀ u : State, u.mem = t.mem → u.pc.toNat = dataBase s + j.val → fetch u = some (s.getV j ++ s.getV k) := by
  obtain ⟨-, hstore, -⟩ := registerStoreWritesVZeroToVx x s
  obtain ⟨t, ht, hread, -⟩ := hstore hfits
  have hlt : j.val < x.val := lt_of_lt_of_le (by omega) (Fin.le_def.mp hkx)
  have hjx : j ≤ x := hlt.le
  refine ⟨t, ht, fun u hmem hpc => fetch_of_reads hpc (by omega) ?_ ?_⟩
  · rw [hmem, hread j hjx]
  · rw [hmem, Nat.add_assoc, ← hk, hread k hkx]

theorem fetch_after_ldBcd (x : RegIx) {s : State} (hfits : dataBase s + 2 ≤ 0xFFF) : ∃ t, exec (.ldBcd x) s = .next t ∧
    ∀ u : State, u.mem = t.mem → u.pc.toNat = dataBase s →
      ∃ w, fetch u = some w ∧ w.toNat = 256 * ((s.getV x).toNat / 100) + (s.getV x).toNat / 10 % 10 := by
  obtain ⟨-, hstore, -⟩ := bcdStoresThreeDigits x s
  obtain ⟨t, ht, hhundreds, htens, -, -⟩ := hstore hfits
  refine ⟨t, ht, fun u hmem hpc => ⟨_, fetch_of_reads hpc (by omega) rfl rfl, ?_⟩⟩
  rw [toNat_wordOfBytes, hmem, hhundreds, htens]

/-- Settles O47: the stored bytes are read back by the fetch. -/
theorem storeIsSeenByTheNextFetch : Obligations.StoreIsSeenByTheNextFetch :=
  ⟨fun _ _ _ _ => fetch_after_storeRegs, fun x _ => fetch_after_ldBcd x⟩

/-! ### One list for one array (log entry 6) -/

theorem Memory.read_of_not_listed {m : Memory} {a : Nat} (h : ∀ e ∈ m, e.1 ≠ a) : m.read a = Memory.unlisted a := by
  induction m with
  | nil => rfl
  | cons e m ih =>
    obtain ⟨hne, hrest⟩ := List.forall_mem_cons.mp h
    rw [Memory.read, if_neg hne.symm, ih hrest]

theorem Memory.wf_cons_iff (e : Host.Cell) (m : Memory) :
    Memory.wf (e :: m) ↔ (∀ f ∈ m, e.1 < f.1) ∧ e.1 < memSize ∧ e.2 ≠ Memory.unlisted e.1 ∧ m.wf := by
  simp only [Memory.wf, List.pairwise_cons, List.forall_mem_cons]
  tauto

/-- The first entry of a canonical list says its address reads otherwise than an unlisted one, so it is listed in every list that reads
alike. -/
theorem Memory.exists_listed_of_read {e : Host.Cell} {m m' : Memory} (h : Memory.wf (e :: m))
    (hread : ∀ a, Memory.read (e :: m) a = m'.read a) : ∃ f ∈ m', f.1 = e.1 := by
  obtain ⟨-, -, hne, -⟩ := (Memory.wf_cons_iff e m).mp h
  by_contra hall
  push Not at hall
  refine hne ?_
  rw [← Memory.read_of_not_listed hall, ← hread, Memory.read, if_pos rfl]

/-- Of two canonical lists that read alike, neither begins at a higher address. -/
theorem Memory.head_address_le {e f : Host.Cell} {m m' : Memory} (h : Memory.wf (e :: m)) (h' : Memory.wf (f :: m'))
    (hread : ∀ a, Memory.read (e :: m) a = Memory.read (f :: m') a) : f.1 ≤ e.1 := by
  obtain ⟨hlt, -⟩ := (Memory.wf_cons_iff f m').mp h'
  obtain ⟨g, hg, hge⟩ := Memory.exists_listed_of_read h hread
  obtain rfl | hg := List.mem_cons.mp hg
  · exact hge.le
  · exact hge ▸ (hlt g hg).le

/-- Without their common first entry two canonical lists still read alike. -/
theorem Memory.read_tail_eq {e : Host.Cell} {m m' : Memory} (h : Memory.wf (e :: m)) (h' : Memory.wf (e :: m'))
    (hread : ∀ a, Memory.read (e :: m) a = Memory.read (e :: m') a) (a : Nat) : m.read a = m'.read a := by
  obtain ⟨hlt, -⟩ := (Memory.wf_cons_iff e m).mp h
  obtain ⟨hlt', -⟩ := (Memory.wf_cons_iff e m').mp h'
  by_cases ha : a = e.1
  · subst ha
    rw [Memory.read_of_not_listed fun f hf => (hlt f hf).ne', Memory.read_of_not_listed fun f hf => (hlt' f hf).ne']
  · simpa only [Memory.read, if_neg ha] using hread a

/-- Settles O48, by induction on both lists: the first entries agree, and so do the rests. -/
theorem canonicalMemoriesThatReadAlikeAreEqual : Obligations.CanonicalMemoriesThatReadAlikeAreEqual := by
  intro m
  induction m with
  | nil =>
    rintro (- | ⟨f, m'⟩) - h' hread
    · rfl
    · obtain ⟨g, hg, -⟩ := Memory.exists_listed_of_read h' fun a => (hread a).symm
      cases hg
  | cons e m ih =>
    rintro (- | ⟨f, m'⟩) h h' hread
    · obtain ⟨g, hg, -⟩ := Memory.exists_listed_of_read h hread
      cases hg
    · have haddr : e.1 = f.1 :=
        le_antisymm (Memory.head_address_le h' h fun a => (hread a).symm) (Memory.head_address_le h h' hread)
      have hbyte : e.2 = f.2 := by simpa [Memory.read, haddr] using hread e.1
      obtain rfl : e = f := Prod.ext haddr hbyte
      obtain ⟨-, -, -, hwf⟩ := (Memory.wf_cons_iff e m).mp h
      obtain ⟨-, -, -, hwf'⟩ := (Memory.wf_cons_iff e m').mp h'
      rw [ih m' hwf hwf' (Memory.read_tail_eq h h' hread)]

end Sys2Proof.Machine
end

section
/-! PROOFS. The draw (44_display.md R162 to R165): the pixels `DRW` toggles, its flag and its frame, and where the two edge policies
agree. -/

namespace Sys2Proof.Machine

/-! ### `DRW` -/

/-- A draw changes VF and the pixels it is given, and nothing else. -/
theorem changesOnly_drawPixels (s : State) (pixels : List (Fin 32 × Fin 64)) :
    ChangesOnly (fun p => p = .reg vf ∨ ∃ r c, (r, c) ∈ pixels ∧ p = .pixel r c) s (drawPixels s pixels) := by
  have hfb : ChangesOnly (fun p => ∃ r c, (r, c) ∈ pixels ∧ p = .pixel r c) s { s with fb := (xorDraw s.fb pixels).1 } := by
    intro p hp
    cases p with
    | pixel r c => exact pixel_xorDraw_other s.fb pixels r c fun hmem => hp ⟨r, c, hmem, rfl⟩
    | _ => rfl
  exact (hfb.mono fun _ => .inr).trans ((changesOnly_setV _ vf _).mono fun _ => .inl)

/-- The pixels `DRW` toggles are inverted and all others stay. -/
theorem pixel_drawPixels_drawnPixels (s : State) (x y : RegIx) {n : Nat} (hn : n < 16) (r : Fin 32) (c : Fin 64) :
    Framebuffer.pixel (drawPixels s (drawnPixels s x y n)).fb r c =
      (Framebuffer.pixel s.fb r c ^^ decide ((r, c) ∈ drawnPixels s x y n)) :=
  (xorDraw_spec s.fb _ (nodup_drawnPixels s x y hn)).1 r c

theorem xorDraw_drawnPixels_hit_iff (s : State) (x y : RegIx) {n : Nat} (hn : n < 16) :
    (xorDraw s.fb (drawnPixels s x y n)).2 = true ↔
      ∃ r c, SpriteCovers s x y n r c ∧ Framebuffer.pixel s.fb r c = true := by
  simp [(xorDraw_spec s.fb _ (nodup_drawnPixels s x y hn)).2, mem_drawnPixels]

theorem exec_drw_of_overrun (x y : RegIx) {n : Nat} {s : State} (hn : 0 < n) (h : 0xFFF < dataBase s + n - 1) :
    exec (.drw x y n) s = .next (s.raise .invalidAccess) := by
  have hover : memSize < dataBase s + n := show 4096 < _ by omega
  show execDrw x y n s = _
  rw [execDrw, (memRead_eq_none _ _ _).mpr ⟨hn, hover⟩, Option.map_none, orRaise_none]

/-- Settles O50: a draw is the XOR of the pixels its sprite covers, and its flag says whether one of them was on. -/
theorem drawXorsTheSpriteAndReportsCollision : Obligations.DrawXorsTheSpriteAndReportsCollision := by
  refine fun x y n s hn => ⟨decodeWord_drw x y hn, fun hfits => ?_, exec_drw_of_overrun x y⟩
  refine ⟨_, exec_drw_of_fits x y hfits, fun r c hcov => ?_, fun r c hcov => ?_, fun hon => ?_, fun hoff => ?_,
    (changesOnly_drawPixels s _).mono ?_⟩
  · rw [pixel_drawPixels_drawnPixels s x y hn, decide_eq_true ((mem_drawnPixels s x y n r c).mpr hcov), Bool.xor_true]
  · rw [pixel_drawPixels_drawnPixels s x y hn, decide_eq_false (mt (mem_drawnPixels s x y n r c).mp hcov), Bool.xor_false]
  · rw [getV_vf_drawPixels, (xorDraw_drawnPixels_hit_iff s x y hn).mpr hon]
    rfl
  · have hmiss : (xorDraw s.fb (drawnPixels s x y n)).2 = false := by
      rw [← Bool.not_eq_true, xorDraw_drawnPixels_hit_iff s x y hn]
      rintro ⟨r, c, hcov, hon⟩
      simp [hoff r c hcov] at hon
    rw [getV_vf_drawPixels, hmiss]
    rfl
  · rintro p (hreg | ⟨r, c, -, hp⟩)
    · exact .inl hreg
    · exact .inr ⟨r, c, hp⟩

/-! ### The edge policies (44_display.md R164) -/

theorem edgePixel_wrap_eq_clip {r c : Nat} (hr : r < 32) (hc : c < 64) : edgePixel .wrap r c = edgePixel .clip r c := by
  refine Option.ext fun q => ?_
  rw [edgePixel_wrap, edgePixel_clip, Nat.mod_eq_of_lt hr, Nat.mod_eq_of_lt hc]

theorem bytePixels_wrap_eq_clip {r c0 : Nat} (hr : r < 32) (hc : c0 ≤ 56) (b : Byte) :
    bytePixels .wrap r c0 b = bytePixels .clip r c0 b := by
  refine List.filterMap_congr fun c hmem => ?_
  have hlt : c < 8 := List.mem_range.mp hmem
  rw [edgePixel_wrap_eq_clip hr (by omega)]

/-- Settles O52, by induction on the rows of the sprite. -/
theorem edgePoliciesAgreeInsideTheScreen : Obligations.EdgePoliciesAgreeInsideTheScreen := by
  intro r0 c0 sprite hc hr
  induction sprite generalizing r0 with
  | nil => rfl
  | cons b rows ih =>
    rw [List.length_cons] at hr
    rw [spritePixels, spritePixels, bytePixels_wrap_eq_clip (by omega) hc, ih (r0 + 1) (by omega)]

end Sys2Proof.Machine
end

section
/-! PROOFS. The keypad instructions (45_timer_keypad.md R173 to R175): a skip on the sampled key, its fault, and the entry into the wait. -/

namespace Sys2Proof.Machine

theorem skipOnKey_of_key {x : RegIx} (pressed : Bool) {s : State} (h : (s.getV x).toNat ≤ 15) :
    skipOnKey x pressed s = some (s.skipIf (keyDown s (s.getV x).toNat == pressed)) :=
  if_neg (Nat.not_lt.mpr h)

theorem skipOnKey_of_no_key {x : RegIx} (pressed : Bool) {s : State} (h : 15 < (s.getV x).toNat) :
    skipOnKey x pressed s = none :=
  if_pos h

section Skip

variable {i : Instr} {x : RegIx} {pressed : Bool} {s : State}
  (hexec : exec i s = orRaise s .invalidKey (skipOnKey x pressed s))
include hexec

/-- An instruction that skips on a key, where Vx names one. -/
theorem exec_of_skipOnKey_key (h : (s.getV x).toNat ≤ 15) :
    exec i s = .next (s.skipIf (keyDown s (s.getV x).toNat == pressed)) := by
  rw [hexec, skipOnKey_of_key pressed h, orRaise_some]

/-- An instruction that skips on a key, where Vx names none. -/
theorem exec_of_skipOnKey_no_key (h : 15 < (s.getV x).toNat) : exec i s = .next (s.raise .invalidKey) := by
  rw [hexec, skipOnKey_of_no_key pressed h, orRaise_none]

end Skip

/-- Settles O54: each is one skip on the bit of the key vector that Vx names, or the fault. -/
theorem keySkipsTestTheSampledKey : Obligations.KeySkipsTestTheSampledKey := by
  intro x s
  have hskp : exec (.skp x) s = orRaise s .invalidKey (skipOnKey x true s) := rfl
  have hsknp : exec (.sknp x) s = orRaise s .invalidKey (skipOnKey x false s) := rfl
  refine ⟨decodeWord_skp x, decodeWord_sknp x, fun h => ⟨?_, ?_⟩,
    fun h => ⟨exec_of_skipOnKey_no_key hskp h, exec_of_skipOnKey_no_key hsknp h⟩⟩
  · rw [exec_of_skipOnKey_key hskp h, State.skipIf, beq_true, keyDown]
  · rw [exec_of_skipOnKey_key hsknp h]
    simp only [State.skipIf, beq_false, keyDown, Bool.not_eq_true', ← Bool.not_eq_true, ite_not]

/-- Settles O55: the execute phase is one write of the mode. -/
theorem keyWaitInstructionOnlyEntersTheWait : Obligations.KeyWaitInstructionOnlyEntersTheWait := fun x _ =>
  ⟨decodeWord_ldVxKey x, rfl⟩

end Sys2Proof.Machine
end

section
/-! PROOFS. The execute phase as a whole (40_cycle.md R85, 60_exceptions.md R181, R186): where it faults, what it writes where it does not,
the flag, and the inputs it reads. -/

namespace Sys2Proof.Machine

/-! ### The fault column of 60_exceptions.md R181 -/

/-- An instruction whose condition holds ends in its fault. -/
theorem exec_of_fault {i : Instr} {s : State} {c : Cause} (h : i.faultIn s = some c) : exec i s = .next (s.raise c) := by
  cases i with
  | call nnn => obtain ⟨hsp, ⟨⟩⟩ := Option.ite_none_right_eq_some.mp h; exact exec_call_of_full nnn hsp
  | ret => obtain ⟨hsp, ⟨⟩⟩ := Option.ite_none_right_eq_some.mp h; exact exec_ret_of_empty hsp
  | ldFont x => obtain ⟨hx, ⟨⟩⟩ := Option.ite_none_right_eq_some.mp h; exact exec_ldFont_of_no_digit hx
  | drw x y n => obtain ⟨⟨hn, hi⟩, ⟨⟩⟩ := Option.ite_none_right_eq_some.mp h; exact exec_drw_of_overrun x y hn hi
  | ldBcd x =>
    obtain ⟨hi, ⟨⟩⟩ := Option.ite_none_right_eq_some.mp h
    exact exec_of_memWrite_overrun rfl (Nat.succ_lt_succ hi)
  | storeRegs x =>
    obtain ⟨hi, ⟨⟩⟩ := Option.ite_none_right_eq_some.mp h
    exact exec_of_memWrite_overrun rfl (by rw [length_regsUpTo]; exact Nat.succ_lt_succ hi)
  | loadRegs x => obtain ⟨hi, ⟨⟩⟩ := Option.ite_none_right_eq_some.mp h; exact exec_loadRegs_of_overrun hi
  | skp x | sknp x => obtain ⟨hx, ⟨⟩⟩ := Option.ite_none_right_eq_some.mp h; exact exec_of_skipOnKey_no_key rfl hx
  | _ => cases h

/-- The execute phase raises neither the fault of the fetch nor that of the decoder. -/
theorem faultIn_ne_earlier (i : Instr) (s : State) :
    i.faultIn s ≠ some .invalidFetch ∧ i.faultIn s ≠ some .unknownOpcode := by
  cases i <;> simp [Instr.faultIn]

/-! ### The frame where nothing faults -/

/-- The execute phase answers a state, and changes nothing that the instruction's rule does not name. -/
def ExecFrame (i : Instr) (s : State) : Prop := ∃ t, exec i s = .next t ∧ ChangesOnly (i.writes s) s t

section Frame

variable {i : Instr} {s t : State}

/-- An instruction that writes one part. -/
theorem execFrame_of_part {q : Part} (hexec : exec i s = .next t) (hframe : ChangesOnly (fun p => p = q) s t)
    (hq : i.writes s q) : ExecFrame i s :=
  ⟨t, hexec, hframe.mono fun | _, rfl => hq⟩

/-- An instruction that writes the flag, then its result. -/
theorem execFrame_of_flag {x : RegIx} {flag result : Byte} (hexec : exec i s = .next (flagThenResult s x flag result))
    (hdest : i.destination x) (hflag : i.flagWriter = true) : ExecFrame i s := by
  refine ⟨_, hexec, (changesOnly_flagThenResult s x flag result).mono ?_⟩
  rintro p (rfl | rfl)
  · exact .inl hdest
  · exact .inr ⟨hflag, rfl⟩

end Frame

theorem execFrame_call (nnn : BitVec 12) {s : State} (h : s.sp.val ≠ 16) : ExecFrame (.call nnn) s := by
  obtain ⟨t, ht, -, -, -, hframe⟩ := exec_call_of_room (k := ⟨s.sp.val, by omega⟩) nnn rfl
  refine ⟨t, ht, hframe.mono ?_⟩
  rintro p (rfl | rfl | rfl)
  · exact rfl
  · exact List.mem_cons_of_mem _ List.mem_cons_self
  · exact List.mem_cons_self

theorem execFrame_ret {s : State} (h : s.sp.val ≠ 0) : ExecFrame .ret s := by
  obtain ⟨t, ht, -, -, hframe⟩ := exec_ret_of_entry (s := s) (k := ⟨s.sp.val - 1, by omega⟩) (Nat.succ_pred h).symm
  refine ⟨t, ht, hframe.mono ?_⟩
  rintro p (rfl | rfl)
  · exact List.mem_cons_of_mem _ List.mem_cons_self
  · exact List.mem_cons_self

theorem execFrame_cls (s : State) : ExecFrame .cls s := by
  refine ⟨_, rfl, (changesOnly_fb s _).mono ?_⟩
  rintro p ⟨r, c, rfl⟩
  exact trivial

theorem drw_fits_of_noFault {x y : RegIx} {n : Nat} {s : State} (h : (Instr.drw x y n).faultIn s = none) :
    n = 0 ∨ dataBase s + n - 1 ≤ 0xFFF := by
  simp only [Instr.faultIn, ite_eq_right_iff, reduceCtorEq, imp_false] at h
  unfold dataBase
  omega

theorem execFrame_drw (x y : RegIx) {n : Nat} {s : State} (h : n = 0 ∨ dataBase s + n - 1 ≤ 0xFFF) :
    ExecFrame (.drw x y n) s := by
  refine ⟨_, exec_drw_of_fits x y h, (changesOnly_drawPixels s _).mono ?_⟩
  rintro p (rfl | ⟨r, c, hmem, rfl⟩)
  · exact .inr ⟨rfl, rfl⟩
  · exact (mem_drawnPixels s x y n r c).mp hmem

theorem execFrame_ldBcd (x : RegIx) {s : State} (h : dataBase s + 2 ≤ 0xFFF) : ExecFrame (.ldBcd x) s := by
  obtain ⟨-, hstore, -⟩ := bcdStoresThreeDigits x s
  obtain ⟨t, ht, -, -, -, hframe⟩ := hstore h
  refine ⟨t, ht, hframe.mono ?_⟩
  rintro p ⟨j, hj, rfl⟩
  exact ⟨Nat.le_add_right _ _, Nat.add_lt_add_left hj _⟩

theorem execFrame_storeRegs (x : RegIx) {s : State} (h : dataBase s + x.val ≤ 0xFFF) : ExecFrame (.storeRegs x) s := by
  obtain ⟨-, hstore, -⟩ := registerStoreWritesVZeroToVx x s
  obtain ⟨t, ht, -, hframe⟩ := hstore h
  refine ⟨t, ht, hframe.mono ?_⟩
  rintro p ⟨j, hj, rfl⟩
  exact ⟨Nat.le_add_right _ _, Nat.add_lt_add_left (Nat.lt_succ_of_le hj) _⟩

theorem execFrame_loadRegs (x : RegIx) {s : State} (h : dataBase s + x.val ≤ 0xFFF) : ExecFrame (.loadRegs x) s := by
  obtain ⟨-, hload, -⟩ := registerLoadReadsVZeroToVx x s
  obtain ⟨t, ht, -, hframe⟩ := hload h
  refine ⟨t, ht, hframe.mono ?_⟩
  rintro p ⟨j, hj, rfl⟩
  exact .inl hj

/-- Every instruction whose condition does not hold completes within its frame. -/
theorem execFrame_of_noFault {i : Instr} {s : State} (h : i.faultIn s = none) : ExecFrame i s := by
  cases i with
  | cls => exact execFrame_cls s
  | ret => exact execFrame_ret (by simpa [Instr.faultIn] using h)
  | call nnn => exact execFrame_call nnn (by simpa [Instr.faultIn] using h)
  | jp _ | jpV0 _ => exact execFrame_of_part rfl (changesOnly_jump s _) List.mem_cons_self
  | seImm _ _ | sneImm _ _ | seReg _ _ | sneReg _ _ =>
    exact execFrame_of_part rfl (changesOnly_skipIf s _) List.mem_cons_self
  | ldImm x _ | addImm x _ | ldReg x _ | orReg x _ | andReg x _ | xorReg x _ | rnd x _ | ldVxDt x =>
    exact execFrame_of_part rfl (changesOnly_setV s x _) (.inl rfl)
  | addReg _ _ | subReg _ _ | shr _ | subnReg _ _ | shl _ => exact execFrame_of_flag rfl rfl rfl
  | ldI _ | addI _ => exact execFrame_of_part rfl (changesOnly_index s _) List.mem_cons_self
  | ldFont x =>
    exact execFrame_of_part (exec_ldFont_of_digit (by simpa [Instr.faultIn] using h)) (changesOnly_index s _)
      List.mem_cons_self
  | drw x y n => exact execFrame_drw x y (drw_fits_of_noFault h)
  | skp x | sknp x =>
    exact execFrame_of_part (exec_of_skipOnKey_key rfl (by simpa [Instr.faultIn] using h)) (changesOnly_skipIf s _)
      List.mem_cons_self
  | ldVxKey x => exact execFrame_of_part rfl (changesOnly_mode s _) List.mem_cons_self
  | ldDtVx x => exact execFrame_of_part rfl (changesOnly_dt s _) List.mem_cons_self
  | ldStVx x => exact execFrame_of_part rfl (changesOnly_st s _) List.mem_cons_self
  | ldBcd x => exact execFrame_ldBcd x (by simpa [Instr.faultIn, dataBase] using h)
  | storeRegs x => exact execFrame_storeRegs x (by simpa [Instr.faultIn, dataBase] using h)
  | loadRegs x => exact execFrame_loadRegs x (by simpa [Instr.faultIn, dataBase] using h)

/-- Everything an execute phase can do: the fault the table names, or the instruction's own effect. -/
theorem exec_cases (i : Instr) (s : State) :
    (∃ c, i.faultIn s = some c ∧ exec i s = .next (s.raise c)) ∨
    (i.faultIn s = none ∧ ∃ t, exec i s = .next t ∧ ChangesOnly (i.writes s) s t) := by
  cases h : i.faultIn s with
  | some c => exact .inl ⟨c, rfl, exec_of_fault h⟩
  | none => exact .inr ⟨rfl, execFrame_of_noFault h⟩

/-- Settles O26: the mode alone after a fault, the named parts otherwise. -/
theorem instructionsChangeOnlyWhatTheirRulesName : Obligations.InstructionsChangeOnlyWhatTheirRulesName := by
  intro i s
  obtain ⟨c, hfault, hs⟩ | ⟨hfault, t, hs, hframe⟩ := exec_cases i s
  · exact ⟨_, hs, (changesOnly_raise s c).mono fun p => (mayWrite_of_fault i hfault p).mpr⟩
  · exact ⟨t, hs, hframe.mono fun p => (mayWrite_of_noFault i hfault p).mpr⟩

/-! ### The flag (10_state.md R13) -/

theorem flagOf_eq (c : Bool) : flagOf c = 0 ∨ flagOf c = 1 := by cases c <;> simp [flagOf]

theorem getV_vf_flagThenResult {x : RegIx} (s : State) (flag result : Byte) (hx : vf ≠ x) :
    (flagThenResult s x flag result).getV vf = flag := by
  rw [getV_flagThenResult, if_neg hx, if_pos rfl]

/-- After a flag writer whose destination is not VF, VF holds a flag value. -/
theorem getV_vf_of_flagWriter {i : Instr} {s t : State} (hflag : i.flagWriter = true) (hdest : ¬i.destination vf)
    (hfault : i.faultIn s = none) (hs : exec i s = .next t) : ∃ c, t.getV vf = flagOf c := by
  cases i with
  | addReg _ _ | subReg _ _ | shr _ | subnReg _ _ | shl _ =>
    cases hs
    exact ⟨_, getV_vf_flagThenResult s _ _ hdest⟩
  | drw x y n =>
    cases (exec_drw_of_fits x y (drw_fits_of_noFault hfault)).symm.trans hs
    exact ⟨_, getV_vf_drawPixels s _⟩
  | _ => cases hflag

/-- Settles O27: VF is outside the frame of every other instruction, and the six leave a flag value in it. -/
theorem vfIsWrittenBySixInstructionsOrAsDestination : Obligations.VfIsWrittenBySixInstructionsOrAsDestination := by
  intro i s hfault
  obtain ⟨t, hs, hframe⟩ := execFrame_of_noFault hfault
  refine ⟨t, hs, fun hchanged => ?_, fun hflag hdest => ?_⟩
  · by_contra hno
    refine hchanged (hframe (.reg vf) ?_)
    rintro (hdest | ⟨hflag, -⟩)
    · exact hno (.inr hdest)
    · exact hno (.inl hflag)
  · obtain ⟨c, hc⟩ := getV_vf_of_flagWriter hflag hdest hfault hs
    exact hc ▸ flagOf_eq c

/-! ### The inputs (10_state.md R27, R28) -/

/-- The execute phase of `i` neither looks at these inputs nor changes them: they can be put on their ports before it or after it. -/
def CommutesWithInputs (i : Instr) (s : State) (keys : BitVec 16) (rnd : Byte) : Prop :=
  ∃ t, exec i s = .next t ∧ exec i (s.withInputs keys rnd) = .next (t.withInputs keys rnd)

section Inputs

variable {i : Instr} {s : State} {keys : BitVec 16} {rnd : Byte} {c : Cause}

/-- An operation that may fault, where it commutes with the inputs. -/
theorem commutesWithInputs_of_orRaise {r r' : Option State} (hexec : exec i s = orRaise s c r)
    (hexec' : exec i (s.withInputs keys rnd) = orRaise (s.withInputs keys rnd) c r')
    (hr : r' = r.map fun t => t.withInputs keys rnd) : CommutesWithInputs i s keys rnd := by
  subst hr
  cases r with
  | none => exact ⟨s.raise c, hexec, hexec'⟩
  | some t => exact ⟨t, hexec, hexec'⟩

/-- A skip that tests a key sees the key vector and not the random byte. -/
theorem skipOnKey_withInputs (x : RegIx) (pressed : Bool) (s : State) (rnd : Byte) :
    skipOnKey x pressed (s.withInputs s.keys rnd) = (skipOnKey x pressed s).map fun t => t.withInputs s.keys rnd := by
  unfold skipOnKey
  rw [State.getV_withInputs]
  split_ifs <;> rfl

/-- Where neither input differs that the instruction reads, the two executions differ in the inputs alone. -/
theorem exec_commutesWithInputs (i : Instr) (s : State) {keys : BitVec 16} {rnd : Byte}
    (hrnd : ∀ x nn, i = .rnd x nn → rnd = s.rnd) (hskp : ∀ x, i = .skp x → keys = s.keys)
    (hsknp : ∀ x, i = .sknp x → keys = s.keys) : CommutesWithInputs i s keys rnd := by
  cases i with
  | rnd x nn => obtain rfl := hrnd x nn rfl; exact ⟨_, rfl, rfl⟩
  | skp x => obtain rfl := hskp x rfl; exact commutesWithInputs_of_orRaise rfl rfl (skipOnKey_withInputs x true s rnd)
  | sknp x => obtain rfl := hsknp x rfl; exact commutesWithInputs_of_orRaise rfl rfl (skipOnKey_withInputs x false s rnd)
  | ret =>
    refine commutesWithInputs_of_orRaise rfl rfl ?_
    rw [popReturn_withInputs, Option.map_map, Option.map_map]
    rfl
  | call nnn =>
    refine commutesWithInputs_of_orRaise rfl rfl ?_
    rw [State.withInputs_pc, pushReturn_withInputs, Option.map_map, Option.map_map]
    rfl
  | drw x y n =>
    refine commutesWithInputs_of_orRaise rfl rfl ?_
    rw [Option.map_map]
    rfl
  | loadRegs x =>
    refine commutesWithInputs_of_orRaise rfl rfl ?_
    rw [Option.map_map]
    exact congrArg (Option.map · _) (funext fun bytes => setVs_withInputs s 0 bytes keys rnd)
  | ldFont x =>
    refine commutesWithInputs_of_orRaise rfl rfl ?_
    rw [State.getV_withInputs]
    split_ifs <;> rfl
  | ldBcd _ | storeRegs _ => exact commutesWithInputs_of_orRaise rfl rfl (memWrite_withInputs _ _ s keys rnd)
  | _ => exact ⟨_, rfl, rfl⟩

end Inputs

/-- Settles O28: the two executions commute with the inputs the instruction does not read. -/
theorem inputsAreReadOnlyByTheirInstructions : Obligations.InputsAreReadOnlyByTheirInstructions := by
  intro i s keys rnd
  obtain ⟨t, ht, -⟩ := instructionsChangeOnlyWhatTheirRulesName i s
  obtain ⟨u, hu, -⟩ := instructionsChangeOnlyWhatTheirRulesName i (s.withInputs keys rnd)
  have hcommute : CommutesWithInputs i s keys rnd → u = t.withInputs keys rnd := by
    rintro ⟨t', ht', hu'⟩
    cases ht.symm.trans ht'
    cases hu.symm.trans hu'
    rfl
  refine ⟨t, u, ht, hu, fun hrnd hkeys => hcommute ?_, fun hskp hsknp hr => hcommute ?_⟩
  · exact exec_commutesWithInputs i s (fun x nn h => absurd h (hrnd x nn)) (fun _ _ => hkeys) fun _ _ => hkeys
  · exact exec_commutesWithInputs i s (fun _ _ _ => hr) (fun x h => absurd h (hskp x)) fun x h => absurd h (hsknp x)

end Sys2Proof.Machine
end

section
/-! PROOFS. The events one by one (40_cycle.md R80 to R92, 60_exceptions.md R196, R199, 70_reset_and_hazards.md R210, R214): what a reset, a
load, a tick and a step in each mode lead to. -/

namespace Sys2Proof.Machine

/-! ### From the event to its effect -/

theorem step_of_reset {s : State} (h : s.nextEvent = .reset) : step s = .next (resetEvent s.takeEvent) := by
  simp only [step, h, applyEvent]

theorem step_of_load {s : State} {bytes : List Byte} (h : s.nextEvent = .load bytes) :
    step s = .next (loadEvent bytes s.takeEvent) := by
  simp only [step, h, applyEvent]

theorem step_of_tick {s : State} (h : s.nextEvent = .tick) : step s = .next (tickEvent s.takeEvent) := by
  simp only [step, h, applyEvent]

theorem step_of_step {s : State} {keys : BitVec 16} {rnd : Byte} (h : s.nextEvent = .step keys rnd) :
    step s = stepByMode (s.atStep keys rnd) := by
  simp only [step, h, applyEvent, State.atStep]

/-! ### Reset -/

theorem atReset_resetEvent (s : State) : AtReset (resetEvent s) where
  registers j := by simp [resetEvent, State.reset, State.getV, Vector.get_eq_getElem]
  font k hk := by
    show Memory.unlisted (fontBase + k) = _
    rw [Memory.unlisted, if_pos (Nat.le_add_right _ _), Nat.add_sub_cancel_left]
  otherMemory a ha := by
    show Memory.unlisted a = 0
    unfold Memory.unlisted fontBase
    obtain hlow | hhigh := ha
    · rw [if_neg (by omega)]
    · have hlen : hardware.font.length = 80 := rfl
      rw [if_pos (by omega), List.getD_eq_default _ _ (by omega)]
  counter := rfl
  index := rfl
  pointer := rfl
  stack k := by simp [resetEvent, State.reset, Vector.get_eq_getElem]
  delayTimer := rfl
  soundTimer := rfl
  pixels := Framebuffer.pixel_clear
  opcode := rfl
  mode := rfl

/-- Settles O15: the reset event writes every element, and the host's events alone go on. -/
theorem resetSetsEveryElement : Obligations.ResetSetsEveryElement :=
  ⟨atReset_resetEvent State.reset, fun s h => ⟨_, step_of_reset h, atReset_resetEvent s.takeEvent, rfl, rfl⟩⟩

/-- Settles O16: the eighty bytes are evaluated. -/
theorem fontTableAtReset : Obligations.FontTableAtReset := by
  unfold Obligations.FontTableAtReset
  decide

/-! ### Tick and load -/

/-- Settles O13: each timer is counted down by itself. -/
theorem tickCountsBothTimersDownInEveryMode : Obligations.TickCountsBothTimersDownInEveryMode := fun s h =>
  ⟨_, step_of_tick h, by simp, by simp, changesOnly_tickEvent s.takeEvent⟩

theorem loadEvent_of_fits {bytes : List Byte} (s : State) (h : bytes.length ≤ 3584) :
    loadEvent bytes s = { s with mem := s.mem.writeList programBase bytes, loadAnswer := some .accepted } := by
  have haccept : imageAnswer bytes = .accepted := if_neg (Nat.not_lt.mpr h)
  simp only [loadEvent, haccept]

theorem loadEvent_of_too_large {bytes : List Byte} (s : State) (h : 3584 < bytes.length) :
    loadEvent bytes s = { s with loadAnswer := some .imageTooLarge } := by
  have hrefuse : imageAnswer bytes = .imageTooLarge := if_pos h
  simp only [loadEvent, hrefuse]

theorem changesOnly_answer (s : State) (a : Option LoadAnswer) :
    ChangesOnly (fun p => p = .answer) s { s with loadAnswer := a } := by
  intro p hp
  cases p with
  | answer => exact absurd rfl hp
  | _ => rfl

/-- Settles O14: an image that fits is one store at 0x200, and one that does not fit writes the answer alone. -/
theorem loadCopiesTheImageOrRefusesIt : Obligations.LoadCopiesTheImageOrRefusesIt := by
  intro s bytes h
  refine ⟨fun hfits => ⟨_, step_of_load h, ?_, fun j hj => ?_, changesOnly_loadEvent bytes s.takeEvent⟩,
    fun hlarge => ⟨_, step_of_load h, ?_, ?_⟩⟩
  · rw [loadEvent_of_fits _ hfits]
  · have hin : 0x200 ≤ 0x200 + j ∧ 0x200 + j < 0x200 + bytes.length := by omega
    simp only [loadEvent_of_fits _ hfits, programBase, Memory.read_writeList, dif_pos hin, Nat.add_sub_cancel_left]
  · rw [loadEvent_of_too_large _ hlarge]
  · rw [loadEvent_of_too_large _ hlarge]
    exact changesOnly_answer s.takeEvent _

/-! ### A step in mode `Halted` or `AwaitingKey` -/

/-- Settles O12: in mode `Halted` the step is the state with its inputs at the ports. -/
theorem haltedStepChangesNothing : Obligations.HaltedStepChangesNothing := fun s _ keys rnd hmode hstep =>
  (step_of_step hstep).trans (stepByMode_of_halted ((State.atStep_mode s keys rnd).trans hmode))

theorem step_of_awaitingKey {s : State} {x : RegIx} {keys : BitVec 16} {rnd : Byte} (hmode : s.mode = .awaitingKey x)
    (hstep : s.nextEvent = .step keys rnd) : step s = .next (resolveWait x (s.atStep keys rnd)) :=
  (step_of_step hstep).trans (stepByMode_of_awaitingKey ((State.atStep_mode s keys rnd).trans hmode))

theorem resolveWait_of_key {x : RegIx} {s : State} {k : Nat} (h : resolvingKey hardware.keyWait s.keys = some k) :
    resolveWait x s = { s.setV x (BitVec.ofNat 8 k) with mode := .running } := by
  simp only [resolveWait, h]

/-- A key wait without a key changes nothing; with one, the waiting register and the mode. -/
theorem changesOnly_resolveWait (x : RegIx) (s : State) :
    ChangesOnly (fun p => s.keys ≠ 0 ∧ (p = .reg x ∨ p = .mode)) s (resolveWait x s) := by
  cases h : resolvingKey hardware.keyWait s.keys with
  | none =>
    rw [resolveWait_of_no_key x ((resolvingKey_eq_none s.keys).mp h)]
    exact ChangesOnly.refl _ s
  | some k =>
    have hkeys : s.keys ≠ 0 := fun hzero => by simp [(resolvingKey_eq_none s.keys).mpr hzero, hardware] at h
    rw [resolveWait_of_key h]
    exact ((changesOnly_setV s x _).mono fun _ hp => ⟨hkeys, .inl hp⟩).trans
      ((changesOnly_mode _ _).mono fun _ hp => ⟨hkeys, .inr hp⟩)

/-- Settles O11: no key resolves nothing, and the lowest key that is down is the one that resolves the wait. -/
theorem keyWaitEndsWithTheLowestPressedKey : Obligations.KeyWaitEndsWithTheLowestPressedKey := by
  refine ⟨fun s x rnd hmode hstep => ?_, fun s x keys rnd k hmode hstep hk hdown hlow => ?_⟩
  · rw [step_of_awaitingKey hmode hstep, resolveWait_of_no_key x rfl]
  · have hkey : resolvingKey hardware.keyWait keys = some k := (resolvingKey_eq_some keys k).mpr ⟨hk, hdown, hlow⟩
    have hresolve := resolveWait_of_key (x := x) (s := s.atStep keys rnd) hkey
    refine ⟨_, step_of_awaitingKey hmode hstep, ?_, ?_, (changesOnly_resolveWait x _).mono fun _ => And.right⟩
    · rw [hresolve]
      show (((s.atStep keys rnd).setV x (BitVec.ofNat 8 k)).getV x).toNat = k
      rw [State.getV_setV_same, BitVec.toNat_ofNat]
      omega
    · rw [hresolve]

/-! ### A step in mode `Running` (40_cycle.md R82 to R85) -/

/-- Everything a running step can do: fault for want of a word, fault on an illegal word, or execute the word's instruction. -/
theorem runningStep_cases {s : State} {keys : BitVec 16} {rnd : Byte} (h : s.RunsStep keys rnd) :
    (fetch s = none ∧ step s = .next ((s.atStep keys rnd).raise .invalidFetch)) ∨
    (∃ w, fetch s = some w ∧ decodeWord w = none ∧
      step s = .next (((s.atStep keys rnd).latch w).raise .unknownOpcode)) ∨
    (∃ w i, fetch s = some w ∧ decodeWord w = some i ∧ step s = exec i ((s.atStep keys rnd).latch w)) := by
  rw [step_of_runsStep h, ← fetch_atStep s keys rnd]
  cases hfetch : fetch (s.atStep keys rnd) with
  | none => exact .inl ⟨rfl, cycle_of_fetch_none hfetch⟩
  | some w =>
    rw [cycle_of_fetch hfetch]
    cases hword : decodeWord w with
    | none => exact .inr (.inl ⟨w, rfl, hword, rfl⟩)
    | some i => exact .inr (.inr ⟨w, i, rfl, hword, rfl⟩)

/-- A running step on the word of an instruction. -/
theorem step_of_instr {s : State} {keys : BitVec 16} {rnd : Byte} {w : Word} {i : Instr} (h : s.RunsStep keys rnd)
    (hfetch : fetch s = some w) (hword : decodeWord w = some i) : step s = exec i ((s.atStep keys rnd).latch w) := by
  rw [step_of_runsStep h, cycle_of_fetch ((fetch_atStep s keys rnd).trans hfetch), hword]

/-- The state in which the execute phase begins, from the state before the event. -/
theorem latch_atStep (s : State) (keys : BitVec 16) (rnd : Byte) (w : Word) :
    (s.atStep keys rnd).latch w = { s.atStep keys rnd with opcode := w, pc := s.pc + 2 } := by
  rw [← State.atStep_pc s keys rnd]
  rfl

/-- Settles O8: the two bytes are the word that is fetched, and decoding them decodes it. -/
theorem stepRunsTheDecodedInstruction : Obligations.StepRunsTheDecodedInstruction := by
  intro s keys rnd i hrun hpc _ hdecode
  obtain ⟨hi, lo, hbytes, hword⟩ := eq_cons_cons_of_decode hdecode
  cases hbytes
  rw [step_of_instr hrun (fetch_of_lt hpc) hword, latch_atStep]
  rfl

/-- Two zero bytes are the word 0, which is illegal. -/
theorem step_of_zeroed {s : State} {keys : BitVec 16} {rnd : Byte} (hrun : s.RunsStep keys rnd) (hpc : s.pc.toNat < 0xFFF)
    (hhi : s.mem.read s.pc.toNat = 0) (hlo : s.mem.read (s.pc.toNat + 1) = 0) :
    ∃ t, step s = .next t ∧ t.mode = .halted .unknownOpcode ∧ t.pc = s.pc + 2 ∧ t.opcode = 0x0000#16 :=
  ⟨_, unknownOpcodeHaltsPastTheWord s keys rnd 0 hrun (fetch_of_reads rfl hpc hhi hlo) (by decide), rfl, rfl, rfl⟩

/-- Settles O17: after reset the two bytes at the program base are 0. -/
theorem zeroedMemoryHaltsTheEngine : Obligations.ZeroedMemoryHaltsTheEngine := by
  refine ⟨fun keys rnd es => ?_, fun _ _ _ => step_of_zeroed⟩
  have hpc : State.reset.pc.toNat < 0xFFF := by decide
  have hhi : State.reset.mem.read State.reset.pc.toNat = 0 := by decide
  have hlo : State.reset.mem.read (State.reset.pc.toNat + 1) = 0 := by decide
  exact step_of_zeroed (s := { State.reset with events := .step keys rnd :: es }) ⟨rfl, rfl⟩ hpc hhi hlo

theorem latch_jump_self {s : State} {w a : Word} (hopcode : s.opcode = w) (hpc : s.pc = a) : (s.latch w).jump a = s := by
  subst hopcode hpc
  rfl

/-- Settles O56: the jump's target is the address of the jump, and the word is latched already. -/
theorem jumpToItselfChangesNothing : Obligations.JumpToItselfChangesNothing := by
  intro s keys rnd hrun hpc hopcode hfetch
  have htop : fieldTop s.opcode = (0x1#4).toNat := by rw [fieldTop_eq, hopcode]; show _ = 1; omega
  have hword : decodeWord s.opcode = some (.jp (fieldNNN s.opcode)) := by
    rw [← decodeWord_jp, formNNN_of_fields htop]
  have htarget : zextAddr (fieldNNN s.opcode) = s.pc := by
    apply BitVec.eq_of_toNat_eq
    rw [toNat_zextAddr, fieldNNN_toNat, hopcode]
    omega
  rw [step_of_instr hrun hfetch hword]
  exact congrArg Host.Outcome.next (latch_jump_self (State.atStep_opcode s keys rnd)
    ((State.atStep_pc s keys rnd).trans htarget.symm))

end Sys2Proof.Machine
end

section
/-! PROOFS. The whole machine (60_exceptions.md section 1, 10_state.md section 10): the mode after an execute phase, what a running step
faults on, the frame of every event, and the host's sequence of events. -/

namespace Sys2Proof.Machine

/-! ### The mode after an execute phase -/

theorem eq_ldVxKey_of_mode_mem_specials {i : Instr} (h : Part.mode ∈ i.specials) : ∃ x, i = .ldVxKey x := by
  cases i with
  | ldVxKey x => exact ⟨x, rfl⟩
  | _ => simp [Instr.specials] at h

/-- Where nothing faults, an execute phase in mode `Running` does not halt. -/
theorem mode_ne_halted_of_noFault {i : Instr} {s t : State} (hrun : s.mode = .running) (hfault : i.faultIn s = none)
    (ht : exec i s = .next t) (c : Cause) : t.mode ≠ .halted c := by
  by_cases hmode : Part.mode ∈ i.specials
  · obtain ⟨x, rfl⟩ := eq_ldVxKey_of_mode_mem_specials hmode
    cases ht
    nofun
  · obtain ⟨t', ht', hframe⟩ := execFrame_of_noFault hfault
    cases ht.symm.trans ht'
    rw [show t.mode = s.mode from hframe .mode hmode, hrun]
    nofun

/-- An execute phase in mode `Running` halts exactly where the table says. -/
theorem mode_exec_eq_halted_iff {i : Instr} {s t : State} (hrun : s.mode = .running) (ht : exec i s = .next t) (c : Cause) :
    t.mode = .halted c ↔ i.faultIn s = some c := by
  cases hfault : i.faultIn s with
  | none => simp [mode_ne_halted_of_noFault hrun hfault ht c]
  | some c' =>
    cases (exec_of_fault hfault).symm.trans ht
    simp

theorem exec_answers_next (i : Instr) (s : State) : ∃ t, exec i s = .next t := by
  obtain ⟨t, ht, -⟩ := instructionsChangeOnlyWhatTheirRulesName i s
  exact ⟨t, ht⟩

/-! ### Faults of a running step -/

/-- Settles O21: each of the three ways a running step can go, and the fault that ends it. -/
theorem faultsArePrecise : Obligations.FaultsArePrecise := by
  intro s keys rnd c t hrun hs hmode
  obtain ⟨-, hs'⟩ | ⟨w, hfetch, -, hs'⟩ | ⟨w, i, hfetch, -, hs'⟩ := runningStep_cases hrun
  · cases hs'.symm.trans hs
    cases hmode
    exact .inl ⟨rfl, rfl⟩
  · cases hs'.symm.trans hs
    cases hmode
    exact .inr ⟨nofun, w, hfetch, congrArg (State.raise · .unknownOpcode) (latch_atStep s keys rnd w)⟩
  · have ht := hs'.symm.trans hs
    have hbegin : ((s.atStep keys rnd).latch w).mode = .running := by simp [hrun.1]
    have hfault := (mode_exec_eq_halted_iff hbegin ht c).mp hmode
    cases (exec_of_fault hfault).symm.trans ht
    refine .inr ⟨?_, w, hfetch, congrArg (State.raise · c) (latch_atStep s keys rnd w)⟩
    rintro rfl
    exact (faultIn_ne_earlier i _).1 hfault

theorem fetch_eq_none_iff (s : State) : fetch s = none ↔ 0xFFF ≤ s.pc.toNat :=
  (fetch_eq_none s).trans Nat.succ_le_succ_iff

/-- The two faults of a running step before its execute phase. -/
theorem runningStep_early_faults {s : State} {keys : BitVec 16} {rnd : Byte} (hrun : s.RunsStep keys rnd) :
    ∃ t, step s = .next t ∧ (t.mode = .halted .invalidFetch ↔ 0xFFF ≤ s.pc.toNat) ∧
      (t.mode = .halted .unknownOpcode ↔ ∃ w, fetch s = some w ∧ decodeWord w = none) := by
  rw [← fetch_eq_none_iff]
  obtain ⟨hfetch, hs⟩ | ⟨w, hfetch, hword, hs⟩ | ⟨w, i, hfetch, hword, hs⟩ := runningStep_cases hrun
  · exact ⟨_, hs, by simp [hfetch]⟩
  · exact ⟨_, hs, by simp [hfetch, hword]⟩
  · obtain ⟨t, ht⟩ := exec_answers_next i ((s.atStep keys rnd).latch w)
    have hbegin : ((s.atStep keys rnd).latch w).mode = .running := by simp [hrun.1]
    have hmode := mode_exec_eq_halted_iff hbegin ht
    obtain ⟨hfirst, hsecond⟩ := faultIn_ne_earlier i ((s.atStep keys rnd).latch w)
    exact ⟨t, hs.trans ht, by simp [hmode, hfirst, hfetch], by simp [hmode, hsecond, hfetch, hword]⟩

theorem loadAnswer_loadEvent_iff (bytes : List Byte) (s : State) :
    (loadEvent bytes s).loadAnswer = some .imageTooLarge ↔ 3584 < bytes.length := by
  obtain h | h := Nat.lt_or_ge 3584 bytes.length
  · simp [loadEvent_of_too_large s h, h]
  · simp [loadEvent_of_fits s h, h]

/-- Settles O22: the execute phase by the table, the two faults before it, and the answer of a load; the codes are evaluated. -/
theorem faultCausesAreExactlyTheTable : Obligations.FaultCausesAreExactlyTheTable := by
  refine ⟨fun i s c hrun => ?_, fun _ _ _ => runningStep_early_faults, fun s bytes h => ?_, rfl, rfl, rfl⟩
  · obtain ⟨t, ht⟩ := exec_answers_next i s
    exact ⟨t, ht, mode_exec_eq_halted_iff hrun ht c⟩
  · exact ⟨_, step_of_load h, by simp, loadAnswer_loadEvent_iff bytes s.takeEvent⟩

/-! ### The frame of every event (10_state.md R31) -/

/-- A running step: the mode where it cannot fetch, the latch as well past the fetch, and then what the instruction writes. -/
theorem runningStep_frame {s : State} {keys : BitVec 16} {rnd : Byte} (hrun : s.RunsStep keys rnd) :
    ∃ t, step s = .next t ∧ ChangesOnly (fun p => p = .mode ∨ ∃ w, fetch s = some w ∧ (p = .opcode ∨ p = .pc ∨
      ∃ i, decodeWord w = some i ∧ i.mayWrite s p)) (s.atStep keys rnd) t := by
  obtain ⟨-, hs⟩ | ⟨w, hfetch, -, hs⟩ | ⟨w, i, hfetch, hword, hs⟩ := runningStep_cases hrun
  · exact ⟨_, hs, (changesOnly_raise _ _).mono fun _ => .inl⟩
  · refine ⟨_, hs, ((changesOnly_latch _ w).mono fun p hp => .inr ⟨w, hfetch, hp.imp_right .inl⟩).trans ?_⟩
    exact (changesOnly_raise _ _).mono fun _ => .inl
  · obtain ⟨t, ht, hframe⟩ := instructionsChangeOnlyWhatTheirRulesName i ((s.atStep keys rnd).latch w)
    refine ⟨t, hs.trans ht, ((changesOnly_latch _ w).mono fun p hp => .inr ⟨w, hfetch, hp.imp_right .inl⟩).trans ?_⟩
    refine hframe.mono fun p hp => .inr ⟨w, hfetch, .inr (.inr ⟨i, hword, ?_⟩)⟩
    exact (mayWrite_congr i (by simp) (by simp) (by simp) (by simp) p).mp hp

theorem countDown_zero : countDown 0 = 0 := rfl

/-- A timer at 0 stays. -/
theorem changesOnly_tickEvent_of_nonzero (s : State) :
    ChangesOnly (fun p => (p = .dt ∧ s.dt ≠ 0) ∨ (p = .st ∧ s.st ≠ 0)) s (tickEvent s) := by
  intro p hp
  cases p with
  | dt =>
    have hzero : s.dt = 0 := by simpa using hp
    show countDown s.dt = s.dt
    rw [hzero, countDown_zero]
  | st =>
    have hzero : s.st = 0 := by simpa using hp
    show countDown s.st = s.st
    rw [hzero, countDown_zero]
  | _ => rfl

/-- Settles O25: event by event, and the step mode by mode. -/
theorem eventsChangeOnlyTheirElements : Obligations.EventsChangeOnlyTheirElements := by
  intro s
  cases he : s.nextEvent with
  | reset => exact ⟨_, step_of_reset he, nofun, nofun, nofun⟩
  | tick =>
    refine ⟨_, step_of_tick he, nofun, fun _ => ?_, nofun⟩
    simpa using changesOnly_tickEvent_of_nonzero s.takeEvent
  | load bytes =>
    refine ⟨_, step_of_load he, ?_, nofun, nofun⟩
    rintro _ ⟨⟩
    refine (changesOnly_loadEvent bytes s.takeEvent).mono ?_
    rintro p (hanswer | ⟨j, -, hbyte⟩)
    · exact .inl hanswer
    · exact .inr ⟨_, Nat.le_add_right _ _, hbyte⟩
  | step keys rnd =>
    cases hmode : s.mode with
    | halted c =>
      refine ⟨_, haltedStepChangesNothing s c keys rnd hmode he, nofun, nofun, ?_⟩
      rintro _ _ ⟨⟩
      exact ⟨fun _ _ => ChangesOnly.refl _ _, nofun, nofun⟩
    | awaitingKey x =>
      refine ⟨_, step_of_awaitingKey hmode he, nofun, nofun, ?_⟩
      rintro _ _ ⟨⟩
      refine ⟨nofun, ?_, nofun⟩
      rintro _ ⟨⟩
      exact changesOnly_resolveWait x (s.atStep keys rnd)
    | running =>
      obtain ⟨t, hs, hframe⟩ := runningStep_frame ⟨hmode, he⟩
      refine ⟨t, hs, nofun, nofun, ?_⟩
      rintro _ _ ⟨⟩
      exact ⟨nofun, nofun, fun _ => hframe⟩

/-- Settles O20: every event answers a state. -/
theorem everyStepAnswersANextState : Obligations.EveryStepAnswersANextState := by
  intro s
  obtain ⟨t, hs, -⟩ := eventsChangeOnlyTheirElements s
  exact ⟨t, hs⟩

/-! ### The host's sequence of events (00_scope.md R6) -/

theorem not_mayWrite_sequence (i : Instr) (s : State) {p : Part} (hp : p = .events ∨ p = .draws) : ¬i.mayWrite s p := by
  unfold Instr.mayWrite
  split <;> obtain rfl | rfl := hp <;> simp [Instr.writes]

/-- Nothing an event does touches the host's sequence: it is outside the frame of every event, and a reset keeps it. -/
theorem step_keeps_sequence (s : State) :
    ∃ t, step s = .next t ∧ ∀ p : Part, p = .events ∨ p = .draws → p.same s.takeEvent t := by
  obtain ⟨t, hs, hload, htick, hstep⟩ := eventsChangeOnlyTheirElements s
  refine ⟨t, hs, fun p hp => ?_⟩
  cases he : s.nextEvent with
  | reset =>
    cases (step_of_reset he).symm.trans hs
    obtain rfl | rfl := hp <;> rfl
  | load bytes => exact hload bytes he p (by obtain rfl | rfl := hp <;> simp)
  | tick => exact htick he p (by obtain rfl | rfl := hp <;> simp)
  | step keys rnd =>
    obtain ⟨hhalted, hwait, hrunning⟩ := hstep keys rnd he
    have hbegin : p.same s.takeEvent (s.atStep keys rnd) := by obtain rfl | rfl := hp <;> rfl
    refine Part.same_trans hbegin ?_
    cases hmode : s.mode with
    | halted c => exact hhalted c hmode p id
    | awaitingKey x => exact hwait x hmode p (by obtain rfl | rfl := hp <;> simp)
    | running =>
      refine hrunning hmode p ?_
      rintro (rfl | ⟨w, -, rfl | rfl | ⟨i, -, hi⟩⟩)
      · simp at hp
      · simp at hp
      · simp at hp
      · exact not_mayWrite_sequence i s hp hi

/-- Settles O57: which event is next, and that its effect leaves the sequence as taking it left it. -/
theorem hostEventsHappenInOrderThenFreely : Obligations.HostEventsHappenInOrderThenFreely := by
  intro s
  obtain ⟨t, hs, hkept⟩ := step_keeps_sequence s
  have hevents : t.events = s.takeEvent.events := hkept .events (.inl rfl)
  have hdraws : t.draws = s.takeEvent.draws := hkept .draws (.inr rfl)
  refine ⟨t, hs, fun e es hlisted => ?_, fun hnone => ?_⟩
  · obtain ⟨hnext, htake⟩ := s.nextEvent_of_listed e es hlisted
    rw [step, hnext, htake] at hs
    rw [htake] at hevents hdraws
    exact ⟨hs, hevents, hdraws⟩
  · obtain ⟨hnext, htake⟩ := s.nextEvent_of_unlisted hnone
    rw [step, hnext, htake] at hs
    rw [htake] at hevents hdraws
    exact ⟨hs, hevents.trans hnone, hdraws⟩

end Sys2Proof.Machine
end

section
/-! PROOFS. The invariant (10_state.md section 10): what an execute phase does to memory, to PC and to the live return addresses, and the
events around it. -/

namespace Sys2Proof.Machine

/-! ### Memory after an execute phase -/

/-- An operation that may fault keeps the canonical form when its own state has it. -/
theorem memory_wf_of_orRaise {s t : State} {c : Cause} {r : Option State} (hwf : s.mem.wf) (h : orRaise s c r = .next t)
    (hr : ∀ u, r = some u → u.mem.wf) : t.mem.wf := by
  cases r with
  | none => cases h; exact hwf
  | some u => cases h; exact hr u rfl

theorem memory_wf_of_orRaise_map {α : Type} {s t : State} {c : Cause} {r : Option α} {f : α → State} (hwf : s.mem.wf)
    (h : orRaise s c (r.map f) = .next t) (hr : ∀ a, r = some a → (f a).mem.wf) : t.mem.wf := by
  refine memory_wf_of_orRaise hwf h fun u hu => ?_
  obtain ⟨a, ha, rfl⟩ := Option.map_eq_some_iff.mp hu
  exact hr a ha

theorem mem_of_pushReturn {a : Word} {s t : State} (h : pushReturn a s = some t) : t.mem = s.mem := by
  obtain ⟨-, rfl⟩ := (pushReturn_eq_some a s t).mp h
  rfl

theorem mem_of_popReturn {s : State} {p : Word × State} (h : popReturn s = some p) : p.2.mem = s.mem := by
  obtain ⟨_, -, hp⟩ := (popReturn_eq_some s p.2 p.1).mp h
  rw [hp]

theorem mem_setVs (s : State) (bytes : List Byte) : (s.setVs 0 bytes).mem = s.mem := by
  obtain ⟨w, hw⟩ := State.setVs_frame s 0 bytes
  rw [hw]

theorem mem_of_skipOnKey {x : RegIx} {pressed : Bool} {s t : State} (h : skipOnKey x pressed s = some t) :
    t.mem = s.mem := by
  obtain hnone | hkey := Nat.lt_or_ge 15 (s.getV x).toNat
  · cases (skipOnKey_of_no_key pressed hnone).symm.trans h
  · cases (skipOnKey_of_key pressed hkey).symm.trans h
    rfl

/-- A store that is carried out lies inside the array (20_memory.md R47). -/
theorem memory_wf_of_memWrite {a : Nat} {bytes : List Byte} {s t : State} (hwf : s.mem.wf)
    (h : memWrite a bytes s = some t) : t.mem.wf := by
  obtain ⟨hfits, rfl⟩ := (memWrite_eq_some a bytes s t).mp h
  exact Memory.wf_writeList s.mem a bytes hfits hwf

/-- The two storing instructions keep the canonical form, and every other instruction the list itself. -/
theorem memory_wf_of_exec {i : Instr} {s t : State} (hwf : s.mem.wf) (ht : exec i s = .next t) : t.mem.wf := by
  cases i with
  | ldBcd _ | storeRegs _ => exact memory_wf_of_orRaise hwf ht fun _ => memory_wf_of_memWrite hwf
  | ret => exact memory_wf_of_orRaise_map hwf ht fun _ hp => by rwa [State.jump_mem, mem_of_popReturn hp]
  | call nnn => exact memory_wf_of_orRaise_map hwf ht fun _ hu => by rwa [State.jump_mem, mem_of_pushReturn hu]
  | drw x y n => exact memory_wf_of_orRaise_map hwf ht fun _ _ => hwf
  | loadRegs x => exact memory_wf_of_orRaise_map hwf ht fun bytes _ => by rwa [mem_setVs]
  | skp _ | sknp _ => exact memory_wf_of_orRaise hwf ht fun _ hu => by rwa [mem_of_skipOnKey hu]
  | ldFont x =>
    obtain hnone | hdigit := Nat.lt_or_ge 15 (s.getV x).toNat
    · cases (exec_ldFont_of_no_digit hnone).symm.trans ht
      exact hwf
    · cases (exec_ldFont_of_digit hdigit).symm.trans ht
      exact hwf
  | _ => cases ht; exact hwf

/-! ### PC after an execute phase (10_state.md R30(b)) -/

/-- A skip advances by 2 or not at all. -/
theorem toNat_pc_skipIf_le (s : State) (c : Bool) : (s.skipIf c).pc.toNat ≤ s.pc.toNat + 2 := by
  rw [State.skipIf_pc]
  split_ifs
  · rw [BitVec.toNat_add]
    exact Nat.mod_le _ _
  · exact Nat.le_add_right _ _

section Execute

variable {i : Instr} {s t : State} (hinv : s.Inv) (hpc : s.pc.toNat ≤ 0x1000) (hfault : i.faultIn s = none)
  (ht : exec i s = .next t)
include hinv hpc hfault ht

/-- From an address that was fetched from, the largest PC is the largest target of `JP V0,NNN`. -/
theorem toNat_pc_of_exec : t.pc.toNat ≤ 0x10FE := by
  have hskip : ∀ c, (s.skipIf c).pc.toNat ≤ 0x10FE := fun c => (toNat_pc_skipIf_le s c).trans (by omega)
  cases i with
  | jp nnn =>
    cases ht
    have := nnn.isLt
    rw [State.jump_pc, toNat_zextAddr]
    omega
  | jpV0 nnn =>
    cases ht
    have := nnn.isLt
    have := (s.getV 0).isLt
    rw [State.jump_pc, toNat_zextAddr_add_zextByte]
    omega
  | call nnn =>
    have hroom : s.sp.val ≠ 16 := by simpa [Instr.faultIn] using hfault
    obtain ⟨t', ht', -, -, htarget, -⟩ := exec_call_of_room (k := ⟨s.sp.val, by omega⟩) nnn rfl
    cases ht.symm.trans ht'
    have := nnn.isLt
    omega
  | ret =>
    have hentry : s.sp.val ≠ 0 := by simpa [Instr.faultIn] using hfault
    obtain ⟨t', ht', htarget, -, -⟩ := exec_ret_of_entry (k := ⟨s.sp.val - 1, by omega⟩) (Nat.succ_pred hentry).symm
    cases ht.symm.trans ht'
    rw [htarget]
    exact (hinv.returns _ (Nat.pred_lt hentry)).trans (by decide)
  | seImm _ _ | sneImm _ _ | seReg _ _ | sneReg _ _ => cases ht; exact hskip _
  | skp x =>
    cases (exec_of_skipOnKey_key (i := .skp x) rfl (by simpa [Instr.faultIn] using hfault)).symm.trans ht
    exact hskip _
  | sknp x =>
    cases (exec_of_skipOnKey_key (i := .sknp x) rfl (by simpa [Instr.faultIn] using hfault)).symm.trans ht
    exact hskip _
  | _ =>
    obtain ⟨t', ht', hframe⟩ := execFrame_of_noFault hfault
    cases ht.symm.trans ht'
    rw [show t.pc = s.pc from hframe .pc (by simp [Instr.writes, Instr.specials])]
    exact hinv.counter

/-! ### The live return addresses (10_state.md R30(c)) -/

/-- A push adds the address after the fetched word, a pop takes one away, and nothing else touches the stack. -/
theorem returns_of_exec : ∀ k : Fin 16, k.val < t.sp.val → (t.stack.get k).toNat ≤ 0x1000 := by
  intro k hk
  cases i with
  | call nnn =>
    have hroom : s.sp.val ≠ 16 := by simpa [Instr.faultIn] using hfault
    obtain ⟨t', ht', hslot, hsp, -, hframe⟩ := exec_call_of_room (k := ⟨s.sp.val, by omega⟩) nnn rfl
    cases ht.symm.trans ht'
    by_cases hnew : k = ⟨s.sp.val, by omega⟩
    · rwa [hnew, hslot]
    · have hold : k.val ≠ s.sp.val := fun h => hnew (Fin.ext h)
      rw [show t.stack.get k = s.stack.get k from hframe (.slot k) (by simpa using hnew)]
      exact hinv.returns k (by simp only at hsp; omega)
  | ret =>
    have hentry : s.sp.val ≠ 0 := by simpa [Instr.faultIn] using hfault
    obtain ⟨t', ht', -, hsp, hframe⟩ := exec_ret_of_entry (k := ⟨s.sp.val - 1, by omega⟩) (Nat.succ_pred hentry).symm
    cases ht.symm.trans ht'
    rw [show t.stack.get k = s.stack.get k from hframe (.slot k) (by simp)]
    exact hinv.returns k (by simp only at hsp; omega)
  | _ =>
    obtain ⟨t', ht', hframe⟩ := execFrame_of_noFault hfault
    cases ht.symm.trans ht'
    have hsp : t.sp = s.sp := hframe .sp (by simp [Instr.writes, Instr.specials])
    rw [show t.stack.get k = s.stack.get k from hframe (.slot k) id]
    exact hinv.returns k (hsp ▸ hk)

end Execute

/-! ### The invariant, event by event -/

/-- The invariant speaks of memory, PC, the stack and SP alone. -/
theorem State.Inv.congr {s t : State} (h : s.Inv) (hmem : t.mem = s.mem) (hpc : t.pc = s.pc) (hstack : t.stack = s.stack)
    (hsp : t.sp = s.sp) : t.Inv where
  memory := hmem ▸ h.memory
  counter := hpc ▸ h.counter
  returns := by rw [hstack, hsp]; exact h.returns

/-- An execute phase, from an address that was fetched from. -/
theorem inv_of_exec {i : Instr} {s t : State} (hinv : s.Inv) (hpc : s.pc.toNat ≤ 0x1000) (ht : exec i s = .next t) :
    t.Inv := by
  cases hfault : i.faultIn s with
  | some c =>
    cases (exec_of_fault hfault).symm.trans ht
    exact hinv.congr rfl rfl rfl rfl
  | none =>
    exact ⟨memory_wf_of_exec hinv.memory ht, toNat_pc_of_exec hinv hpc hfault ht, returns_of_exec hinv hpc hfault ht⟩

theorem inv_atStep {s : State} (h : s.Inv) (keys : BitVec 16) (rnd : Byte) : (s.atStep keys rnd).Inv :=
  h.congr (State.atStep_mem s keys rnd) (State.atStep_pc s keys rnd) (State.atStep_stack s keys rnd)
    (State.atStep_sp s keys rnd)

/-- Past a fetch PC is at most 0x1000 (20_memory.md R45). -/
theorem toNat_pc_latch_le {s : State} {w w' : Word} (h : fetch s = some w) : (s.latch w').pc.toNat ≤ 0x1000 := by
  obtain ⟨hpc, -⟩ := (fetch_eq_some s w).mp h
  have hlt : s.pc.toNat + 1 < 4096 := hpc
  rw [State.latch_pc, BitVec.toNat_add]
  exact (Nat.mod_le _ _).trans (show s.pc.toNat + 2 ≤ 0x1000 by omega)

theorem inv_latch {s : State} {w : Word} (hinv : s.Inv) (h : fetch s = some w) : (s.latch w).Inv :=
  ⟨hinv.memory, (toNat_pc_latch_le h).trans (by decide), hinv.returns⟩

theorem inv_of_runningStep {s t : State} {keys : BitVec 16} {rnd : Byte} (hinv : s.Inv) (hrun : s.RunsStep keys rnd)
    (hs : step s = .next t) : t.Inv := by
  have hbegin := inv_atStep hinv keys rnd
  have hlatch : ∀ {w}, fetch s = some w → ((s.atStep keys rnd).latch w).Inv := fun hfetch =>
    inv_latch hbegin ((fetch_atStep s keys rnd).trans hfetch)
  obtain ⟨-, hs'⟩ | ⟨w, hfetch, -, hs'⟩ | ⟨w, i, hfetch, -, hs'⟩ := runningStep_cases hrun
  · cases hs'.symm.trans hs
    exact hbegin.congr rfl rfl rfl rfl
  · cases hs'.symm.trans hs
    exact (hlatch hfetch).congr rfl rfl rfl rfl
  · exact inv_of_exec (hlatch hfetch) (toNat_pc_latch_le ((fetch_atStep s keys rnd).trans hfetch)) (hs'.symm.trans hs)

theorem inv_resolveWait (x : RegIx) {s : State} (h : s.Inv) : (resolveWait x s).Inv := by
  cases hkey : resolvingKey hardware.keyWait s.keys with
  | none => rwa [resolveWait_of_no_key x ((resolvingKey_eq_none s.keys).mp hkey)]
  | some k =>
    rw [resolveWait_of_key hkey]
    exact h.congr rfl rfl rfl rfl

/-- An image that is copied lies inside the array (60_exceptions.md R199). -/
theorem inv_loadEvent (bytes : List Byte) {s : State} (h : s.Inv) : (loadEvent bytes s).Inv := by
  obtain hlarge | hfits := Nat.lt_or_ge 3584 bytes.length
  · rw [loadEvent_of_too_large s hlarge]
    exact h.congr rfl rfl rfl rfl
  · rw [loadEvent_of_fits s hfits]
    exact ⟨Memory.wf_writeList _ _ _ (Nat.add_le_add_left hfits 0x200) h.memory, h.counter, h.returns⟩

/-- Settles O19: nothing is listed, PC is the program base and no entry is live. -/
theorem resetSatisfiesTheInvariant : Obligations.ResetSatisfiesTheInvariant where
  memory := Memory.wf_nil
  counter := by decide
  returns := nofun

/-- Settles O18: each event keeps the three properties, a step in each of its modes. -/
theorem everyStepKeepsTheInvariant : Obligations.EveryStepKeepsTheInvariant := by
  intro s t hinv hs
  have htake : s.takeEvent.Inv := hinv.congr (by simp) (by simp) (by simp) (by simp)
  cases he : s.nextEvent with
  | reset =>
    cases (step_of_reset he).symm.trans hs
    exact resetSatisfiesTheInvariant.congr rfl rfl rfl rfl
  | load bytes =>
    cases (step_of_load he).symm.trans hs
    exact inv_loadEvent bytes htake
  | tick =>
    cases (step_of_tick he).symm.trans hs
    exact htake.congr rfl rfl rfl rfl
  | step keys rnd =>
    cases hmode : s.mode with
    | halted c =>
      cases (haltedStepChangesNothing s c keys rnd hmode he).symm.trans hs
      exact inv_atStep hinv keys rnd
    | awaitingKey x =>
      cases (step_of_awaitingKey hmode he).symm.trans hs
      exact inv_resolveWait x (inv_atStep hinv keys rnd)
    | running => exact inv_of_runningStep hinv ⟨hmode, he⟩ hs

end Sys2Proof.Machine
end
